-- ==== Sys2Proof/Word.lean ====
section
/-!
DEFINITION. The value types of 00_scope.md rule R8: the 32-bit words of the ports, the
256-bit values of the registers, and the values a register file holds.
-/

namespace Sys2Proof

/-- A word of the command port or of the response port (rule R63). -/
abbrev Word := BitVec 32

/-- `WInt` of rule R8: an unsigned integer below `2^W`, `W = 256` (rule R4). -/
abbrev WInt := BitVec 256

/-- A field element: a value and the modulus it belongs to, held by value (rules R8, R21).
That `2 ≤ prime` and `val < prime` is `Elem.Wf` in Safety.lean. -/
structure Elem where
  val : WInt
  prime : WInt
  deriving DecidableEq, Repr

/-- A short Weierstrass curve `y^2 = x^3 + a*x + b` modulo `p` (rules R8, R26). -/
structure Curve where
  a : WInt
  b : WInt
  p : WInt
  deriving DecidableEq, Repr

/-- A point, as the tagged variant of rule R8: the identity has no coordinates (rule R28). -/
inductive Pt where
  | infinity
  | affine (x y : WInt)
  deriving DecidableEq, Repr

/-- A point together with the curve it lies on, held by value (rules R8, R28). -/
structure CPoint where
  pt : Pt
  cv : Curve
  deriving DecidableEq, Repr

end Sys2Proof
end

