-- ==== Sys2Proof/Config.lean ====
section
/-!
DEFINITION. What the hardware fixes: the parameters of 00_scope.md rule R4 and the read-only
constants of 10_state.md rules R36 to R40. No command changes any of them (rules R20, R41).
-/

namespace Sys2Proof.Config

/-- Width in bits of every value and payload (rule R4). -/
abbrev W : Nat := 256

/-- Payload length in words, `W / 32` (rule R4). -/
abbrev NW : Nat := 8

/-- Number of element registers (rule R4). -/
abbrev NF : Nat := 16

/-- Number of writable point registers (rule R4). -/
abbrev NP : Nat := 8

/-- Number of writable curve registers (rule R4). -/
abbrev NC : Nat := 2

/-- Number of writable modulus registers (rule R4). -/
abbrev NM : Nat := 2

/-- The identification word (rule R36). -/
def id : Word := 0x4D410108#32

/-- `SP`, the secp256k1 field prime `2^256 - 2^32 - 977` (rule R37). -/
def sp : WInt := 0xFFFFFFFFFFFFFFFFFFFFFFFFFFFFFFFFFFFFFFFFFFFFFFFFFFFFFFFEFFFFFC2F#256

/-- `SN`, the secp256k1 group order (rule R38).
PRESUMED (unsafe): rule R38 itself marks the digits as general knowledge, not the source's (log 9). -/
def sn : WInt := 0xFFFFFFFFFFFFFFFFFFFFFFFFFFFFFFFEBAAEDCE6AF48A03BBFD25E8CD0364141#256

/-- `K1`, the secp256k1 curve `(0, 7, SP)` (rule R39). -/
def k1 : Curve := ⟨0#256, 7#256, sp⟩

/-- The `x` coordinate of the generator (rule R40). PRESUMED (unsafe), as for `sn` (log 9). -/
def gx : WInt := 0x79BE667EF9DCBBAC55A06295CE870B07029BFCDB2DCE28D959F2815B16F81798#256

/-- The `y` coordinate of the generator (rule R40). PRESUMED (unsafe), as for `sn` (log 9). -/
def gy : WInt := 0x483ADA7726A3C4655DA4FBFC0E1108A8FD17B448A68554199C47D08FFB10D4B8#256

/-- `G`, the secp256k1 generator on `K1` (rule R40). -/
def g : CPoint := ⟨.affine gx gy, k1⟩

end Sys2Proof.Config
end

