-- ==== Sys2Proof/Machine/State.lean ====
section
/-!
DEFINITION. The architectural state of the engine (10_state.md rules R20 to R35), the two ports
as plain data, the error kinds (60_exceptions.md rule R231), and the state after reset (rule R44).
-/

namespace Sys2Proof.Machine

/-- The error kinds of rule R231; PointNotOnCurve carries the offending coordinates (R237). -/
inductive Err where
  | fieldMismatch
  | pointNotOnCurve (x y : WInt)
  | curveMismatch
  | illegalCommand
  | uninit
  | badModulus
  | sqrtDomain
  deriving DecidableEq, Repr

/-- A response (rule R90): the error code (0 for success), the flag and the data words.
`RESP0` is a view of it (`Response.resp0` in Flags.lean). -/
structure Response where
  err : BitVec 8
  flag : Bool
  data : List Word
  deriving DecidableEq, Repr

/-- What the host does at the engine's inputs (rules R63, R260, R261): it presents one word at
the command port, or it asserts reset. -/
inductive PortEvent where
  | word (w : Word)
  | reset
  deriving DecidableEq, Repr

/-- The whole state of the engine (rule R20) and its two ports.

A register file holds `some v` for a register whose valid bit is 1 and `none` for one whose
valid bit is 0 (rule R23; log 5). `sticky` holds `STICKY[1..7]`, bit `c - 1` being `STICKY[c]`
(rule R34; log 15). `port` and `responses` are the model's own: the command and the response
are inputs and outputs of the step (rule R43), and stand here so that the step is a function
of the state (log 1, 2). -/
structure State where
  /-- `F0` to `F15` (rule R21). -/
  f : Vector (Option Elem) 16
  /-- `M0`, `M1` (rule R24). -/
  m : Vector (Option WInt) 2
  /-- `C0`, `C1` (rule R26). -/
  c : Vector (Option Curve) 2
  /-- `P0` to `P7` (rule R28). -/
  p : Vector (Option CPoint) 8
  /-- `T` (rule R33). -/
  t : Bool
  /-- `STICKY[1..7]` (rule R34). -/
  sticky : BitVec 7
  /-- `EX` (rule R35). -/
  ex : WInt
  /-- `EY` (rule R35). -/
  ey : WInt
  /-- What the host has presented and the engine has not yet taken, oldest first. -/
  port : List PortEvent
  /-- What the engine has returned to the host, oldest first (rule R241). -/
  responses : List Response
  deriving DecidableEq, Repr

/-- Reasons for the machine to stop: there are none. No error halts the engine (rule R238) and
the step is a total function (rule R11), so nothing raises a fault (log 12). -/
inductive Fault where
  deriving DecidableEq, Repr

/-- Reasons for the model to give an instruction no meaning. -/
inductive Refusal where
  /-- Raised only by an arm of `exec` for an instruction that has no meaning yet; no arm is so
  now. Safe: the model stops where the hardware goes on. -/
  | notModelled (mnemonic : String)
  deriving DecidableEq, Repr

/-- The state right after reset (rule R44): every valid bit 0, `T`, `STICKY`, `EX`, `EY` zero.
The ports are empty (DESIGN CHOICE, log 1 and 2): the host has presented nothing yet. -/
def State.reset : State where
  f := Vector.replicate 16 none
  m := Vector.replicate 2 none
  c := Vector.replicate 2 none
  p := Vector.replicate 8 none
  t := false
  sticky := 0#7
  ex := 0#256
  ey := 0#256
  port := []
  responses := []

end Sys2Proof.Machine
end

