-- ==== Sys2Proof/Syntax.lean ====
section
/-!
DEFINITION. The commands of 30_encoding.md rule R84 as syntax: one constructor per row of
the opcode table, selectors turned into the names of rules R21, R25, R27, R29 and `fn` values
turned into the names of rules R84 and R92.
-/

namespace Sys2Proof

/-- An element selector: all sixteen values name a register (rule R21). -/
abbrev ElemSel := Fin 16

/-- A modulus selector (rule R25): `M0`, `M1`, or one of the constants `SP`, `SN`. -/
inductive ModSel where
  | m (i : Fin 2)
  | sp
  | sn
  deriving DecidableEq, Repr

/-- A curve selector (rule R27): `C0`, `C1`, or the constant `K1`. -/
inductive CurveSel where
  | c (i : Fin 2)
  | k1
  deriving DecidableEq, Repr

/-- A point selector (rule R29): `P0` to `P7`, or the constant `G`. -/
inductive PointSel where
  | p (i : Fin 8)
  | g
  deriving DecidableEq, Repr

/-- What RDST returns (rule R211). -/
inductive StatusSel where
  | status
  | errinfo
  | ident
  deriving DecidableEq, Repr

/-- Which half of an element FST returns (rule R115). -/
inductive ElemPart where
  | value
  | prime
  deriving DecidableEq, Repr

/-- Which half of a point PST returns (rule R158). -/
inductive PointPart where
  | coords
  | curve
  deriving DecidableEq, Repr

/-- Which root FSQRT writes (rule R123). -/
inductive RootForm where
  | raw
  | even
  | odd
  deriving DecidableEq, Repr

/-- The 29 commands (rule R84), operands in the order of the assembler form (rule R92): the
destination `d` first, then the sources, then the function bits and the payload. -/
inductive Instr where
  | nop
  | rdst (sel : StatusSel)
  | clrst
  | mld (d : ModSel) (payload : WInt)
  | mst (a : ModSel)
  | fld (d : ElemSel) (a : ModSel) (payload : WInt)
  | fmov (d a : ElemSel)
  | fst (a : ElemSel) (part : ElemPart)
  | fadd (d a b : ElemSel)
  | fsub (d a b : ElemSel)
  | fmul (d a b : ElemSel)
  | fmuli (d a : ElemSel) (payload : WInt)
  | fdiv (d a b : ElemSel)
  | finv (d a : ElemSel)
  | fpow (d a : ElemSel) (neg : Bool) (payload : WInt)
  | fsqrt (d a : ElemSel) (form : RootForm)
  | fisz (a : ElemSel)
  | feq (a b : ElemSel)
  | cmk (d : CurveSel) (a b : ElemSel)
  | cst (a : CurveSel)
  | pmk (d : PointSel) (x y : ElemSel) (c : CurveSel)
  | pinf (d : PointSel) (c : CurveSel)
  | pmov (d a : PointSel)
  | pst (a : PointSel) (part : PointPart)
  | padd (d a b : PointSel)
  | pdbl (d a : PointSel)
  | pmul (d a : PointSel) (payload : WInt)
  | pmuln (d a : PointSel) (payload : WInt)
  | peq (a b : PointSel)
  deriving DecidableEq, Repr

end Sys2Proof
end

