-- ==== Sys2Proof/Machine/Arith.lean ====
section
/-!
DEFINITION. The arithmetic of the rules as functions on values: true modulo, modular power,
the field operations on elements (40_field.md), the membership test, curve equality and the
group law (41_curve_point.md), and scalar multiplication (42_scalar_mul_secp256k1.md).
Intermediate values are exact integers (00_scope.md rule R6).
-/

namespace Sys2Proof.Machine

/-! ### Integers -/

/-- `tmod(v, m)` of rule R7: the remainder in `[0, m)`, whatever the sign of `v`. -/
def tmod (v : Int) (m : Nat) : Nat := (v % (m : Int)).toNat

/-- A reduced result as a register holds it (rule R6): exact when `v < 2^W`. -/
def toWInt (v : Nat) : WInt := BitVec.ofNat Config.W v

/-- Square and multiply on at most `n` bits of the exponent `e`. -/
def modexpLoop : (n b e m : Nat) → Nat
  | 0, _, _, m => 1 % m
  | n + 1, b, e, m =>
    if e = 0 then 1 % m
    else
      let r := modexpLoop n (b * b % m) (e / 2) m
      if e % 2 = 1 then b * r % m else r

/-- `modexp(b, e, m)` of rule R9, the value of `b^e mod m` with `b^0 = 1`. The rule leaves the
algorithm open; this one can be evaluated on 256-bit exponents (log 8). -/
def modexp (b e m : Nat) : Nat := modexpLoop (e.log2 + 1) b e m

/-! ### Field elements -/

/-- FADD's result (rule R116). -/
def elemAdd (a b : Elem) : Elem :=
  ⟨toWInt (tmod (a.val.toNat + b.val.toNat) a.prime.toNat), a.prime⟩

/-- FSUB's result (rule R117). -/
def elemSub (a b : Elem) : Elem :=
  ⟨toWInt (tmod ((a.val.toNat : Int) - b.val.toNat) a.prime.toNat), a.prime⟩

/-- FMUL's result (rule R118). -/
def elemMul (a b : Elem) : Elem :=
  ⟨toWInt (tmod (a.val.toNat * b.val.toNat) a.prime.toNat), a.prime⟩

/-- FMULI's result (rule R119): the multiplier is a plain integer. -/
def elemMulInt (a : Elem) (k : Nat) : Elem :=
  ⟨toWInt (tmod (a.val.toNat * k) a.prime.toNat), a.prime⟩

/-- FPOW's result (rule R120): the exponent is first reduced modulo `p - 1`. -/
def elemPow (a : Elem) (e : Int) : Elem :=
  let p := a.prime.toNat
  ⟨toWInt (modexp a.val.toNat (tmod e (p - 1)) p), a.prime⟩

/-- `FDivVal(n, d, p)` of rule R170, the field division of rule R121. -/
def fdivVal (n d p : Nat) : Nat := tmod (n * modexp d (p - 2) p) p

/-- FDIV's result (rule R121). -/
def elemDiv (a b : Elem) : Elem :=
  ⟨toWInt (fdivVal a.val.toNat b.val.toNat a.prime.toNat), a.prime⟩

/-- FINV's result (rule R122). -/
def elemInv (a : Elem) : Elem :=
  let p := a.prime.toNat
  ⟨toWInt (modexp a.val.toNat (p - 2) p), a.prime⟩

/-- The square-root candidate `beta` of rule R123. -/
def sqrtRaw (a : Elem) : Nat :=
  let p := a.prime.toNat
  modexp a.val.toNat ((p + 1) / 4) p

/-- The candidate of the wanted parity (1 is odd): `beta` or `p - beta` (rule R123). -/
def selectParity (want beta p : Nat) : Nat :=
  if beta % 2 = want then beta else tmod ((p : Int) - beta) p

/-- FSQRT's result in each of its forms (rule R123). -/
def elemSqrt (form : RootForm) (a : Elem) : Elem :=
  let p := a.prime.toNat
  let beta := sqrtRaw a
  match form with
  | .raw => ⟨toWInt beta, a.prime⟩
  | .even => ⟨toWInt (selectParity 0 beta p), a.prime⟩
  | .odd => ⟨toWInt (selectParity 1 beta p), a.prime⟩

/-! ### Curves and points -/

/-- `OnCurve(x, y, cv)` of rule R151. -/
def onCurve (x y : WInt) (cv : Curve) : Bool :=
  let x := x.toNat
  let y := y.toNat
  tmod (y * y) cv.p.toNat == tmod (x * x * x + cv.a.toNat * x + cv.b.toNat) cv.p.toNat

/-- `CurveEq(c, d)` of rule R152: by value. -/
def curveEq (c d : Curve) : Bool := c.a == d.a && c.b == d.b && c.p == d.p

/-- The end of cases 2 and 5 of rule R170: the third point for the slope `s`, tested for
membership as rule R173 says. -/
def thirdPoint (s x1 y1 x2 : Nat) (cv : Curve) : Except Err CPoint :=
  let p := cv.p.toNat
  let x3 := tmod ((s : Int) * s - x1 - x2) p
  let y3 := tmod ((s : Int) * (x1 - x3) - y1) p
  if onCurve (toWInt x3) (toWInt y3) cv then .ok ⟨.affine (toWInt x3) (toWInt y3), cv⟩
  else .error (.pointNotOnCurve (toWInt x3) (toWInt y3))

/-- The slope of case 2 of rule R170. -/
def chordSlope (x1 y1 x2 y2 p : Nat) : Nat :=
  fdivVal (tmod ((y2 : Int) - y1) p) (tmod ((x2 : Int) - x1) p) p

/-- The slope of case 5 of rule R170. -/
def tangentSlope (x1 y1 a p : Nat) : Nat :=
  fdivVal (tmod (3 * x1 * x1 + a) p) (tmod (2 * y1) p) p

/-- `PointAdd(u, v)` of rule R170; the five cases are tested in the order written. -/
def pointAdd (u v : CPoint) : Except Err CPoint :=
  if !curveEq u.cv v.cv then .error .curveMismatch
  else
    match u.pt, v.pt with
    | .infinity, _ => .ok v
    | .affine _ _, .infinity => .ok u
    | .affine x1 y1, .affine x2 y2 =>
      let p := u.cv.p.toNat
      if x1 ≠ x2 then
        thirdPoint (chordSlope x1.toNat y1.toNat x2.toNat y2.toNat p)
          x1.toNat y1.toNat x2.toNat u.cv
      else if y1 ≠ y2 then .ok ⟨.infinity, u.cv⟩
      else if y1 = 0#256 then .ok ⟨.infinity, u.cv⟩
      else
        thirdPoint (tangentSlope x1.toNat y1.toNat u.cv.a.toNat p)
          x1.toNat y1.toNat x2.toNat u.cv

/-- The addition of rule R192 for the lowest bit of `k`. -/
def addIfOdd (k : Nat) (result term : CPoint) : Except Err CPoint :=
  if k % 2 = 1 then pointAdd result term else .ok result

/-- The loop of rule R192, at most `n` iterations: one addition for a set bit, and a doubling
in every iteration, the last one too. -/
def scalarLoop : (n k : Nat) → (result term : CPoint) → Except Err CPoint
  | 0, _, result, _ => .ok result
  | n + 1, k, result, term =>
    if k = 0 then .ok result
    else
      match addIfOdd k result term with
      | .error e => .error e
      | .ok result' =>
        match pointAdd term term with
        | .error e => .error e
        | .ok term' => scalarLoop n (k / 2) result' term'

/-- `ScalarMul(k, u)` of rule R192: `bitlength(k)` iterations. -/
def scalarMul (k : Nat) (u : CPoint) : Except Err CPoint :=
  scalarLoop (k.log2 + 1) k ⟨.infinity, u.cv⟩ u

end Sys2Proof.Machine
end

