-- ==== Sys2Proof/WellFormed.lean ====
section
/-!
DEFINITION. Which commands of the syntax are legal: a constant is never a destination
(10_state.md rules R25, R27, R29; 30_encoding.md rule R86). Every other operand of the syntax
names a legal field value, so this is the only check a command can fail.
-/

namespace Sys2Proof

/-- `M0` or `M1`: a modulus selector that MLD may write (rule R25). -/
def ModSel.writable : ModSel → Bool
  | .m _ => true
  | .sp => false
  | .sn => false

/-- `C0` or `C1`: a curve selector that CMK may write (rule R27). -/
def CurveSel.writable : CurveSel → Bool
  | .c _ => true
  | .k1 => false

/-- `P0` to `P7`: a point selector that a point command may write (rule R29). -/
def PointSel.writable : PointSel → Bool
  | .p _ => true
  | .g => false

/-- A legal command: its destination, if it has one, is a register (rules R84, R86). -/
def Instr.wellFormed : Instr → Bool
  | .nop => true
  | .rdst _ => true
  | .clrst => true
  | .mld d _ => d.writable
  | .mst _ => true
  | .fld _ _ _ => true
  | .fmov _ _ => true
  | .fst _ _ => true
  | .fadd _ _ _ => true
  | .fsub _ _ _ => true
  | .fmul _ _ _ => true
  | .fmuli _ _ _ => true
  | .fdiv _ _ _ => true
  | .finv _ _ => true
  | .fpow _ _ _ _ => true
  | .fsqrt _ _ _ => true
  | .fisz _ => true
  | .feq _ _ => true
  | .cmk d _ _ => d.writable
  | .cst _ => true
  | .pmk d _ _ _ => d.writable
  | .pinf d _ => d.writable
  | .pmov d _ => d.writable
  | .pst _ _ => true
  | .padd d _ _ => d.writable
  | .pdbl d _ => d.writable
  | .pmul d _ _ => d.writable
  | .pmuln d _ _ => d.writable
  | .peq _ _ => true

end Sys2Proof
end

