-- ==== Sys2Proof/Decode.lean ====
section
/-!
DEFINITION. The words of a command (30_encoding.md): word order (20_memory.md rule R62), the
header layout (rule R81), lengths (rule R80), decoding with every illegal encoding rejected by
name (rules R84 to R87), and the encoder. Both follow the table of rule R84.
-/

namespace Sys2Proof

/-! ### Word order -/

/-- `words(v)` of rule R62: the eight words of a value, most significant first. -/
def words (v : WInt) : List Word :=
  (List.range Config.NW).map fun i => v.extractLsb' (Config.W - 32 - 32 * i) 32

/-- `value(ws)` of rule R62, before it is read as a `WInt`: earlier words weigh more. -/
def wordsToNat (ws : List Word) : Nat :=
  ws.foldl (fun acc w => acc * 2 ^ 32 + w.toNat) 0

/-- `value(ws)` of rule R62 for the eight words of a payload. -/
def value (ws : List Word) : WInt :=
  BitVec.ofNat Config.W (wordsToNat ws)

/-! ### The header -/

/-- The fields of a header word (rule R81). -/
structure Header where
  op : BitVec 8
  rd : BitVec 4
  ra : BitVec 4
  rb : BitVec 4
  rc : BitVec 4
  fn : BitVec 8
  deriving DecidableEq, Repr

/-- The fields of a word at the bit positions of rule R81. -/
def headerFields (h : Word) : Header where
  op := h.extractLsb' 24 8
  rd := h.extractLsb' 20 4
  ra := h.extractLsb' 16 4
  rb := h.extractLsb' 12 4
  rc := h.extractLsb' 8 4
  fn := h.extractLsb' 0 8

/-- The word with the given fields (rule R81). -/
def headerWord (x : Header) : Word :=
  x.op ++ x.rd ++ x.ra ++ x.rb ++ x.rc ++ x.fn

/-- Whether a payload follows, decided by the opcode byte alone, defined or not (rule R80). -/
def opHasPayload (op : BitVec 8) : Bool :=
  op == 0x10#8 || op == 0x20#8 || op == 0x26#8 || op == 0x29#8 || op == 0x46#8 || op == 0x47#8

/-- How many payload words follow a header (rule R80). -/
def payloadLength (h : Word) : Nat :=
  if opHasPayload (headerFields h).op then Config.NW else 0

/-! ### Decoding -/

/-- Why a command is illegal. The engine reports all of them by the one code IllegalCommand
(rule R88); the names say which rule rejects the words. -/
inductive Illegal where
  /-- The opcode is not in the table (rule R87). -/
  | undefinedOpcode
  /-- A field the format does not use is not zero (rule R85). -/
  | mustBeZero
  /-- An `fn` value the table does not list (rule R85). -/
  | badFunction
  /-- A selector out of range, or a constant as destination (rule R86). -/
  | badSelector
  /-- Not the words of one command: rule R80 fixes the length. The engine never meets this
  one, since it takes exactly the words rule R80 says. -/
  | badLength
  deriving DecidableEq, Repr

/-- Modulus selector (rule R25). -/
def decodeMod (v : BitVec 4) : Except Illegal ModSel :=
  match v.toNat with
  | 0 => .ok (.m 0)
  | 1 => .ok (.m 1)
  | 2 => .ok .sp
  | 3 => .ok .sn
  | _ => .error .badSelector

/-- Curve selector (rule R27). -/
def decodeCurve (v : BitVec 4) : Except Illegal CurveSel :=
  match v.toNat with
  | 0 => .ok (.c 0)
  | 1 => .ok (.c 1)
  | 2 => .ok .k1
  | _ => .error .badSelector

/-- Point selector (rule R29). -/
def decodePoint (v : BitVec 4) : Except Illegal PointSel :=
  if h : v.toNat < Config.NP then .ok (.p ⟨v.toNat, h⟩)
  else if v.toNat = Config.NP then .ok .g
  else .error .badSelector

/-- Modulus selector as a destination: the constants are not legal (rule R25). -/
def decodeModDest (v : BitVec 4) : Except Illegal ModSel := do
  let d ← decodeMod v
  if d.writable then .ok d else .error .badSelector

/-- Curve selector as a destination: the constant is not legal (rule R27). -/
def decodeCurveDest (v : BitVec 4) : Except Illegal CurveSel := do
  let d ← decodeCurve v
  if d.writable then .ok d else .error .badSelector

/-- Point selector as a destination: the constant is not legal (rule R29). -/
def decodePointDest (v : BitVec 4) : Except Illegal PointSel := do
  let d ← decodePoint v
  if d.writable then .ok d else .error .badSelector

/-- The must-be-zero check of rule R85 for the selector fields: `true` marks a field that the
format uses (rule R83), in the order `rd`, `ra`, `rb`, `rc`. -/
def checkUnused (x : Header) (rd ra rb rc : Bool) : Except Illegal Unit :=
  if (rd || x.rd == 0#4) && (ra || x.ra == 0#4) && (rb || x.rb == 0#4) && (rc || x.rc == 0#4)
  then .ok () else .error .mustBeZero

/-- The must-be-zero check of rule R85 for `fn`. -/
def checkNoFn (x : Header) : Except Illegal Unit :=
  if x.fn == 0#8 then .ok () else .error .mustBeZero

/-- `fn` of RDST (rule R84). -/
def decodeStatusSel (fn : BitVec 8) : Except Illegal StatusSel :=
  match fn.toNat with
  | 0 => .ok .status
  | 1 => .ok .errinfo
  | 2 => .ok .ident
  | _ => .error .badFunction

/-- `fn` of FST (rule R84). -/
def decodeElemPart (fn : BitVec 8) : Except Illegal ElemPart :=
  match fn.toNat with
  | 0 => .ok .value
  | 1 => .ok .prime
  | _ => .error .badFunction

/-- `fn` of PST (rule R84). -/
def decodePointPart (fn : BitVec 8) : Except Illegal PointPart :=
  match fn.toNat with
  | 0 => .ok .coords
  | 1 => .ok .curve
  | _ => .error .badFunction

/-- `fn` of FPOW: bit 0 is `neg`, the others are zero (rule R84). -/
def decodeNeg (fn : BitVec 8) : Except Illegal Bool :=
  match fn.toNat with
  | 0 => .ok false
  | 1 => .ok true
  | _ => .error .badFunction

/-- `fn` of FSQRT: 0, 2 and 3 are legal, 1 is not (rule R84). -/
def decodeRootForm (fn : BitVec 8) : Except Illegal RootForm :=
  match fn.toNat with
  | 0 => .ok .raw
  | 2 => .ok .even
  | 3 => .ok .odd
  | _ => .error .badFunction

/-- The command of a header's fields and a payload, by the table of rule R84. The payload is
looked at by no check (rule R88). -/
def decodeFields (x : Header) (payload : WInt) : Except Illegal Instr :=
  match x.op.toNat with
  | 0x01 => do
    checkUnused x false false false false; checkNoFn x
    return .nop
  | 0x02 => do
    checkUnused x false false false false
    return .rdst (← decodeStatusSel x.fn)
  | 0x03 => do
    checkUnused x false false false false; checkNoFn x
    return .clrst
  | 0x10 => do
    checkUnused x true false false false; checkNoFn x
    return .mld (← decodeModDest x.rd) payload
  | 0x11 => do
    checkUnused x false true false false; checkNoFn x
    return .mst (← decodeMod x.ra)
  | 0x20 => do
    checkUnused x true true false false; checkNoFn x
    return .fld x.rd.toFin (← decodeMod x.ra) payload
  | 0x21 => do
    checkUnused x true true false false; checkNoFn x
    return .fmov x.rd.toFin x.ra.toFin
  | 0x22 => do
    checkUnused x false true false false
    return .fst x.ra.toFin (← decodeElemPart x.fn)
  | 0x23 => do
    checkUnused x true true true false; checkNoFn x
    return .fadd x.rd.toFin x.ra.toFin x.rb.toFin
  | 0x24 => do
    checkUnused x true true true false; checkNoFn x
    return .fsub x.rd.toFin x.ra.toFin x.rb.toFin
  | 0x25 => do
    checkUnused x true true true false; checkNoFn x
    return .fmul x.rd.toFin x.ra.toFin x.rb.toFin
  | 0x26 => do
    checkUnused x true true false false; checkNoFn x
    return .fmuli x.rd.toFin x.ra.toFin payload
  | 0x27 => do
    checkUnused x true true true false; checkNoFn x
    return .fdiv x.rd.toFin x.ra.toFin x.rb.toFin
  | 0x28 => do
    checkUnused x true true false false; checkNoFn x
    return .finv x.rd.toFin x.ra.toFin
  | 0x29 => do
    checkUnused x true true false false
    return .fpow x.rd.toFin x.ra.toFin (← decodeNeg x.fn) payload
  | 0x2A => do
    checkUnused x true true false false
    return .fsqrt x.rd.toFin x.ra.toFin (← decodeRootForm x.fn)
  | 0x2B => do
    checkUnused x false true false false; checkNoFn x
    return .fisz x.ra.toFin
  | 0x2C => do
    checkUnused x false true true false; checkNoFn x
    return .feq x.ra.toFin x.rb.toFin
  | 0x30 => do
    checkUnused x true true true false; checkNoFn x
    return .cmk (← decodeCurveDest x.rd) x.ra.toFin x.rb.toFin
  | 0x31 => do
    checkUnused x false true false false; checkNoFn x
    return .cst (← decodeCurve x.ra)
  | 0x40 => do
    checkNoFn x
    return .pmk (← decodePointDest x.rd) x.ra.toFin x.rb.toFin (← decodeCurve x.rc)
  | 0x41 => do
    checkUnused x true false false true; checkNoFn x
    return .pinf (← decodePointDest x.rd) (← decodeCurve x.rc)
  | 0x42 => do
    checkUnused x true true false false; checkNoFn x
    return .pmov (← decodePointDest x.rd) (← decodePoint x.ra)
  | 0x43 => do
    checkUnused x false true false false
    return .pst (← decodePoint x.ra) (← decodePointPart x.fn)
  | 0x44 => do
    checkUnused x true true true false; checkNoFn x
    return .padd (← decodePointDest x.rd) (← decodePoint x.ra) (← decodePoint x.rb)
  | 0x45 => do
    checkUnused x true true false false; checkNoFn x
    return .pdbl (← decodePointDest x.rd) (← decodePoint x.ra)
  | 0x46 => do
    checkUnused x true true false false; checkNoFn x
    return .pmul (← decodePointDest x.rd) (← decodePoint x.ra) payload
  | 0x47 => do
    checkUnused x true true false false; checkNoFn x
    return .pmuln (← decodePointDest x.rd) (← decodePoint x.ra) payload
  | 0x48 => do
    checkUnused x false true true false; checkNoFn x
    return .peq (← decodePoint x.ra) (← decodePoint x.rb)
  | _ => .error .undefinedOpcode

/-- The command that the words of one command stand for: a header and, for the six payload
opcodes, eight payload words (rules R80, R82). -/
def decode (ws : List Word) : Except Illegal Instr :=
  match ws with
  | [] => .error .badLength
  | h :: payload =>
    if payload.length = payloadLength h then decodeFields (headerFields h) (value payload)
    else .error .badLength

/-- Word `i` of an instruction whose bits the opcode table numbers as `w`: bit 0 is the least
significant bit of the header, each later word's bits count on, and the bits from `nbits` up
are zero. -/
def tableWord (nbits w i : Nat) : Word :=
  BitVec.ofNat 32 ((w >>> (32 * i)) % 2 ^ min 32 (nbits - 32 * i))

/-- All its words: the header's opcode says how many there are (rule R80). -/
def tableWords (nbits w : Nat) : List Word :=
  (List.range (1 + payloadLength (tableWord nbits w 0))).map (tableWord nbits w)

/-- The instruction the decoder reads from bits numbered as the opcode table numbers them. -/
def decodeTableWord (nbits w : Nat) : Option Instr :=
  (decode (tableWords nbits w)).toOption

/-! ### Encoding -/

/-- The number of a modulus selector (rule R25). -/
def encodeMod : ModSel → BitVec 4
  | .m i => BitVec.ofNat 4 i
  | .sp => 2#4
  | .sn => 3#4

/-- The number of a curve selector (rule R27). -/
def encodeCurve : CurveSel → BitVec 4
  | .c i => BitVec.ofNat 4 i
  | .k1 => 2#4

/-- The number of a point selector (rule R29). -/
def encodePoint : PointSel → BitVec 4
  | .p i => BitVec.ofNat 4 i
  | .g => 8#4

/-- The number of an element selector (rule R21). -/
def encodeElem (r : ElemSel) : BitVec 4 := ⟨r⟩

/-- `fn` of RDST (rule R92). -/
def encodeStatusSel : StatusSel → BitVec 8
  | .status => 0#8
  | .errinfo => 1#8
  | .ident => 2#8

/-- `fn` of FST (rule R92). -/
def encodeElemPart : ElemPart → BitVec 8
  | .value => 0#8
  | .prime => 1#8

/-- `fn` of PST (rule R92). -/
def encodePointPart : PointPart → BitVec 8
  | .coords => 0#8
  | .curve => 1#8

/-- `fn` of FPOW (rule R92). -/
def encodeNeg : Bool → BitVec 8
  | false => 0#8
  | true => 1#8

/-- `fn` of FSQRT (rule R92). -/
def encodeRootForm : RootForm → BitVec 8
  | .raw => 0#8
  | .even => 2#8
  | .odd => 3#8

/-- The header fields of a command, by the table of rule R84; a field its format does not use
is zero (rule R83). -/
def encodeFields : Instr → Header
  | .nop => ⟨0x01#8, 0#4, 0#4, 0#4, 0#4, 0#8⟩
  | .rdst sel => ⟨0x02#8, 0#4, 0#4, 0#4, 0#4, encodeStatusSel sel⟩
  | .clrst => ⟨0x03#8, 0#4, 0#4, 0#4, 0#4, 0#8⟩
  | .mld d _ => ⟨0x10#8, encodeMod d, 0#4, 0#4, 0#4, 0#8⟩
  | .mst a => ⟨0x11#8, 0#4, encodeMod a, 0#4, 0#4, 0#8⟩
  | .fld d a _ => ⟨0x20#8, encodeElem d, encodeMod a, 0#4, 0#4, 0#8⟩
  | .fmov d a => ⟨0x21#8, encodeElem d, encodeElem a, 0#4, 0#4, 0#8⟩
  | .fst a part => ⟨0x22#8, 0#4, encodeElem a, 0#4, 0#4, encodeElemPart part⟩
  | .fadd d a b => ⟨0x23#8, encodeElem d, encodeElem a, encodeElem b, 0#4, 0#8⟩
  | .fsub d a b => ⟨0x24#8, encodeElem d, encodeElem a, encodeElem b, 0#4, 0#8⟩
  | .fmul d a b => ⟨0x25#8, encodeElem d, encodeElem a, encodeElem b, 0#4, 0#8⟩
  | .fmuli d a _ => ⟨0x26#8, encodeElem d, encodeElem a, 0#4, 0#4, 0#8⟩
  | .fdiv d a b => ⟨0x27#8, encodeElem d, encodeElem a, encodeElem b, 0#4, 0#8⟩
  | .finv d a => ⟨0x28#8, encodeElem d, encodeElem a, 0#4, 0#4, 0#8⟩
  | .fpow d a neg _ => ⟨0x29#8, encodeElem d, encodeElem a, 0#4, 0#4, encodeNeg neg⟩
  | .fsqrt d a form => ⟨0x2A#8, encodeElem d, encodeElem a, 0#4, 0#4, encodeRootForm form⟩
  | .fisz a => ⟨0x2B#8, 0#4, encodeElem a, 0#4, 0#4, 0#8⟩
  | .feq a b => ⟨0x2C#8, 0#4, encodeElem a, encodeElem b, 0#4, 0#8⟩
  | .cmk d a b => ⟨0x30#8, encodeCurve d, encodeElem a, encodeElem b, 0#4, 0#8⟩
  | .cst a => ⟨0x31#8, 0#4, encodeCurve a, 0#4, 0#4, 0#8⟩
  | .pmk d x y c => ⟨0x40#8, encodePoint d, encodeElem x, encodeElem y, encodeCurve c, 0#8⟩
  | .pinf d c => ⟨0x41#8, encodePoint d, 0#4, 0#4, encodeCurve c, 0#8⟩
  | .pmov d a => ⟨0x42#8, encodePoint d, encodePoint a, 0#4, 0#4, 0#8⟩
  | .pst a part => ⟨0x43#8, 0#4, encodePoint a, 0#4, 0#4, encodePointPart part⟩
  | .padd d a b => ⟨0x44#8, encodePoint d, encodePoint a, encodePoint b, 0#4, 0#8⟩
  | .pdbl d a => ⟨0x45#8, encodePoint d, encodePoint a, 0#4, 0#4, 0#8⟩
  | .pmul d a _ => ⟨0x46#8, encodePoint d, encodePoint a, 0#4, 0#4, 0#8⟩
  | .pmuln d a _ => ⟨0x47#8, encodePoint d, encodePoint a, 0#4, 0#4, 0#8⟩
  | .peq a b => ⟨0x48#8, 0#4, encodePoint a, encodePoint b, 0#4, 0#8⟩

/-- The payload a command carries, for the six payload commands (rule R80). -/
def Instr.payload? : Instr → Option WInt
  | .mld _ payload => some payload
  | .fld _ _ payload => some payload
  | .fmuli _ _ payload => some payload
  | .fpow _ _ _ payload => some payload
  | .pmul _ _ payload => some payload
  | .pmuln _ _ payload => some payload
  | .nop => none
  | .rdst _ => none
  | .clrst => none
  | .mst _ => none
  | .fmov _ _ => none
  | .fst _ _ => none
  | .fadd _ _ _ => none
  | .fsub _ _ _ => none
  | .fmul _ _ _ => none
  | .fdiv _ _ _ => none
  | .finv _ _ => none
  | .fsqrt _ _ _ => none
  | .fisz _ => none
  | .feq _ _ => none
  | .cmk _ _ _ => none
  | .cst _ => none
  | .pmk _ _ _ _ => none
  | .pinf _ _ => none
  | .pmov _ _ => none
  | .pst _ _ => none
  | .padd _ _ _ => none
  | .pdbl _ _ => none
  | .peq _ _ => none

/-- The words of a command: the header, then the payload most significant word first
(rules R80, R82). -/
def encode (i : Instr) : List Word :=
  headerWord (encodeFields i) :: (i.payload?.map words).getD []

end Sys2Proof
end

