-- ==== Sys2Proof/Machine/Ops.lean ====
section
/-!
DEFINITION. The named operations on the state: writing a register, ending a command with
success (`respond`) or with an error (`raise`, the one operation that takes an exception),
reset, and taking the words of one command from the command port.
-/

namespace Sys2Proof.Machine

/-! ### Register writes (00_scope.md rule R10): the value is written and the valid bit set -/

/-- `F[d] <- v`. -/
def State.writeF (s : State) (d : ElemSel) (v : Elem) : State := { s with f := s.f.set d (some v) }

/-- `M[d] <- v`. -/
def State.writeM (s : State) (d : Fin 2) (v : WInt) : State := { s with m := s.m.set d (some v) }

/-- `C[d] <- v`. -/
def State.writeC (s : State) (d : Fin 2) (v : Curve) : State := { s with c := s.c.set d (some v) }

/-- `P[d] <- v`. -/
def State.writeP (s : State) (d : Fin 8) (v : CPoint) : State := { s with p := s.p.set d (some v) }

/-- `T <- v` (10_state.md rule R33). -/
def State.writeT (s : State) (v : Bool) : State := { s with t := v }

/-- `STICKY[1..7] <- 0` (rules R34, R212). -/
def State.clearSticky (s : State) : State := { s with sticky := 0#7 }

/-! ### Ending a command -/

/-- `respond(flag, data)` of rule R10: the command ends with success. -/
def State.respond (s : State) (flag : Bool) (data : List Word) : State :=
  { s with responses := s.responses ++ [⟨0#8, flag, data⟩] }

/-- The error code of rule R231. -/
def Err.code : Err → Nat
  | .fieldMismatch => 1
  | .pointNotOnCurve _ _ => 2
  | .curveMismatch => 3
  | .illegalCommand => 4
  | .uninit => 5
  | .badModulus => 6
  | .sqrtDomain => 7

/-- The sticky bits with `STICKY[c]` set (rule R34). -/
def setSticky (sticky : BitVec 7) (c : Nat) : BitVec 7 := sticky ||| (1#7 <<< (c - 1))

/-- `EX` and `EY` are written by PointNotOnCurve only (rules R35, R237). -/
def State.recordErr (s : State) (e : Err) : State :=
  match e with
  | .pointNotOnCurve x y => { s with ex := x, ey := y }
  | .fieldMismatch => s
  | .curveMismatch => s
  | .illegalCommand => s
  | .uninit => s
  | .badModulus => s
  | .sqrtDomain => s

/-- Taking an exception: exactly the effects of 60_exceptions.md rule R236. Nothing is saved,
nothing is vectored, and there is no return from it (rule R238): the next command executes
normally. -/
def State.raise (s : State) (e : Err) : State :=
  let s' := s.recordErr e
  { s' with
    sticky := setSticky s.sticky e.code
    responses := s.responses ++ [⟨BitVec.ofNat 8 e.code, false, []⟩] }

/-- How a command ends: with the state its effect and response left, or with an error taken in
the state the command started from (rule R236: errors are precise). -/
def complete (s : State) (r : Except Err State) : Host.Outcome State Fault Refusal :=
  match r with
  | .ok s' => .next s'
  | .error e => .next (s.raise e)

/-- `if not ok then raise e`. -/
def check (ok : Bool) (e : Err) : Except Err Unit := if ok then .ok () else .error e

/-! ### Reset and the command port -/

/-- The reset event (70_reset_and_hazards.md rule R260): the state of rule R44. What the host
presents after it, and the responses it has had, are the host's (log 2, 3). -/
def State.hostReset (s : State) (rest : List PortEvent) : State :=
  { State.reset with port := rest, responses := s.responses }

/-- What the engine finds at the command port. -/
inductive Fetched where
  /-- No whole command has been presented yet. -/
  | waiting
  /-- Reset, and what was presented after it. -/
  | reset (rest : List PortEvent)
  /-- The words of one command, and what was presented after them. -/
  | command (ws : List Word) (rest : List PortEvent)
  deriving DecidableEq, Repr

/-- Put one word before the words taken so far. -/
def Fetched.cons (w : Word) : Fetched → Fetched
  | .waiting => .waiting
  | .reset rest => .reset rest
  | .command ws rest => .command (w :: ws) rest

/-- Take `n` words. A reset that comes before the last of them discards the words before it
(rule R261). -/
def takeWords : Nat → List PortEvent → Fetched
  | 0, rest => .command [] rest
  | _ + 1, [] => .waiting
  | _ + 1, .reset :: rest => .reset rest
  | n + 1, .word w :: rest => (takeWords n rest).cons w

/-- Take one command (30_encoding.md rule R80): a header and the payload words its opcode
calls for, whether the command is legal or not (rule R88). -/
def fetch : List PortEvent → Fetched
  | [] => .waiting
  | .reset :: rest => .reset rest
  | .word h :: rest => (takeWords (payloadLength h) rest).cons h

/-- The host's presenting of words, oldest first. -/
def present (ws : List Word) : List PortEvent := ws.map .word

end Sys2Proof.Machine
end

