-- ==== Sys2Proof/Machine/Flags.lean ====
section
/-!
DEFINITION. Every flag computation of the spec: the values the tests write to `T` (10_state.md
rule R33), the `STATUS` view (rule R32), `RESP0` (30_encoding.md rule R90), and the data words
of the responses that return a curve or a point (rule R91).
-/

namespace Sys2Proof.Machine

/-- FISZ's test (40_field.md rule R124). -/
def isZero (a : Elem) : Bool := a.val == 0#256

/-- FEQ's test (rule R125): the same pair. -/
def elemEq (a b : Elem) : Bool := a.val == b.val && a.prime == b.prime

/-- FSQRT's test (rule R123): does the raw candidate square to the operand. -/
def isRoot (a : Elem) : Bool :=
  tmod (sqrtRaw a * sqrtRaw a) a.prime.toNat == a.val.toNat

/-- FSQRT's domain: `p mod 4 = 3` (rule R123). -/
def sqrtDomain (a : Elem) : Bool := a.prime.toNat % 4 == 3

/-- PEQ's test (41_curve_point.md rule R159). -/
def pointEq (u v : CPoint) : Bool := curveEq u.cv v.cv && u.pt == v.pt

/-- `STATUS` (rule R32): `T` in bit 0, `STICKY[1..7]` in bits 15:9, zero elsewhere. -/
def State.status (s : State) : Word :=
  0#16 ++ s.sticky ++ 0#8 ++ BitVec.ofBool s.t

/-- `RESP0` (rule R90): `err` in bits 7:0, the flag in bit 8, zero elsewhere. -/
def Response.resp0 (r : Response) : Word :=
  0#23 ++ BitVec.ofBool r.flag ++ r.err

/-- A response as the response port returns it: `RESP0`, then the data words (rule R90). -/
def Response.words (r : Response) : List Word := r.resp0 :: r.data

/-- The data words of a curve (rule R91). -/
def curveWords (cv : Curve) : List Word := words cv.a ++ words cv.b ++ words cv.p

/-- The data words of `PST 0` (rules R91, R158): the tag, then the coordinates, or sixteen
padding words for `Infinity`. -/
def pointWords : Pt → List Word
  | .infinity => 1#32 :: List.replicate (2 * Config.NW) 0#32
  | .affine x y => 0#32 :: (words x ++ words y)

end Sys2Proof.Machine
end

