-- ==== Sys2Proof/Machine/Operands.lean ====
section
/-!
DEFINITION. Every operand form of the commands: reading a register or a constant through a
selector (10_state.md rules R21 to R29; a register whose valid bit is 0 raises Uninit), a
destination selector (a constant is IllegalCommand), and the signed exponent of FPOW.
-/

namespace Sys2Proof.Machine

/-- The value of a register, or Uninit when its valid bit is 0 (rules R23, R234). -/
def valid {α : Type} : Option α → Except Err α
  | some v => .ok v
  | none => .error .uninit

/-- `F[a]` (rule R21). -/
def State.readF (s : State) (a : ElemSel) : Except Err Elem := valid s.f[a]

/-- `M[a]` (rule R25): the constants are always valid. -/
def State.readM (s : State) : ModSel → Except Err WInt
  | .m i => valid s.m[i]
  | .sp => .ok Config.sp
  | .sn => .ok Config.sn

/-- `C[a]` (rule R27). -/
def State.readC (s : State) : CurveSel → Except Err Curve
  | .c i => valid s.c[i]
  | .k1 => .ok Config.k1

/-- `P[a]` (rule R29). -/
def State.readP (s : State) : PointSel → Except Err CPoint
  | .p i => valid s.p[i]
  | .g => .ok Config.g

/-- A modulus destination; a constant is not legal (rules R25, R86; log 10). -/
def modDest : ModSel → Except Err (Fin 2)
  | .m i => .ok i
  | .sp => .error .illegalCommand
  | .sn => .error .illegalCommand

/-- A curve destination; the constant is not legal (rules R27, R86; log 10). -/
def curveDest : CurveSel → Except Err (Fin 2)
  | .c i => .ok i
  | .k1 => .error .illegalCommand

/-- A point destination; the constant is not legal (rules R29, R86; log 10). -/
def pointDest : PointSel → Except Err (Fin 8)
  | .p i => .ok i
  | .g => .error .illegalCommand

/-- The exponent of FPOW: a sign bit and a magnitude (40_field.md rule R120). -/
def exponent (neg : Bool) (payload : WInt) : Int :=
  if neg then -(payload.toNat : Int) else payload.toNat

end Sys2Proof.Machine
end

