-- ==== Sys2Proof/Machine/Field.lean ====
section
/-!
DEFINITION. The prime-field commands of 40_field.md. Each follows the template of rule R110:
the destination's legality, the source reads, the domain check, the modulus comparison, the
result. All sources are read before the destination is written (rule R130).
-/

namespace Sys2Proof.Machine

/-- The template of a command with two element sources and an element result: rule R110 steps
2, 4 and 5. -/
def elemBinary (op : Elem → Elem → Elem) (d a b : ElemSel) (s : State) : Except Err State := do
  let x ← s.readF a
  let y ← s.readF b
  check (x.prime == y.prime) .fieldMismatch
  return (s.writeF d (op x y)).respond false []

/-- The template of a command with one element source and an element result. -/
def elemUnary (op : Elem → Elem) (d a : ElemSel) (s : State) : Except Err State := do
  let x ← s.readF a
  return (s.writeF d (op x)).respond false []

/-- The end of a test: `T` is written and is the flag of the response (rule R33). -/
def State.respondTest (s : State) (t : Bool) : State := (s.writeT t).respond t []

/-- MLD (rule R111). -/
def execMld (d : ModSel) (payload : WInt) (s : State) : Host.Outcome State Fault Refusal :=
  complete s do
    let i ← modDest d
    check (2 ≤ payload.toNat) .badModulus
    return (s.writeM i payload).respond false []

/-- MST (rule R112). -/
def execMst (a : ModSel) (s : State) : Host.Outcome State Fault Refusal :=
  complete s do
    let v ← s.readM a
    return s.respond false (words v)

/-- FLD (rule R113): the payload is reduced, not refused. -/
def execFld (d : ElemSel) (a : ModSel) (payload : WInt) (s : State) :
    Host.Outcome State Fault Refusal :=
  complete s do
    let v ← s.readM a
    return (s.writeF d ⟨toWInt (tmod payload.toNat v.toNat), v⟩).respond false []

/-- FMOV (rule R114). -/
def execFmov (d a : ElemSel) (s : State) : Host.Outcome State Fault Refusal :=
  complete s (elemUnary (fun x => x) d a s)

/-- FST (rule R115). -/
def execFst (a : ElemSel) (part : ElemPart) (s : State) : Host.Outcome State Fault Refusal :=
  complete s do
    let x ← s.readF a
    return s.respond false <|
      match part with
      | .value => words x.val
      | .prime => words x.prime

/-- FADD (rule R116). -/
def execFadd (d a b : ElemSel) (s : State) : Host.Outcome State Fault Refusal :=
  complete s (elemBinary elemAdd d a b s)

/-- FSUB (rule R117). -/
def execFsub (d a b : ElemSel) (s : State) : Host.Outcome State Fault Refusal :=
  complete s (elemBinary elemSub d a b s)

/-- FMUL (rule R118). -/
def execFmul (d a b : ElemSel) (s : State) : Host.Outcome State Fault Refusal :=
  complete s (elemBinary elemMul d a b s)

/-- FMULI (rule R119). -/
def execFmuli (d a : ElemSel) (payload : WInt) (s : State) : Host.Outcome State Fault Refusal :=
  complete s (elemUnary (fun x => elemMulInt x payload.toNat) d a s)

/-- FDIV (rule R121): a zero divisor is not an error (rule R128). -/
def execFdiv (d a b : ElemSel) (s : State) : Host.Outcome State Fault Refusal :=
  complete s (elemBinary elemDiv d a b s)

/-- FINV (rule R122): the inverse of zero is not an error (rule R128). -/
def execFinv (d a : ElemSel) (s : State) : Host.Outcome State Fault Refusal :=
  complete s (elemUnary elemInv d a s)

/-- FPOW (rule R120). -/
def execFpow (d a : ElemSel) (neg : Bool) (payload : WInt) (s : State) :
    Host.Outcome State Fault Refusal :=
  complete s (elemUnary (fun x => elemPow x (exponent neg payload)) d a s)

/-- FSQRT (rule R123): no error for an operand without a root, only `T` tells. -/
def execFsqrt (d a : ElemSel) (form : RootForm) (s : State) : Host.Outcome State Fault Refusal :=
  complete s do
    let x ← s.readF a
    check (sqrtDomain x) .sqrtDomain
    return (s.writeF d (elemSqrt form x)).respondTest (isRoot x)

/-- FISZ (rule R124). -/
def execFisz (a : ElemSel) (s : State) : Host.Outcome State Fault Refusal :=
  complete s do
    let x ← s.readF a
    return s.respondTest (isZero x)

/-- FEQ (rule R125): elements of different moduli are unequal, not an error. -/
def execFeq (a b : ElemSel) (s : State) : Host.Outcome State Fault Refusal :=
  complete s do
    let x ← s.readF a
    let y ← s.readF b
    return s.respondTest (elemEq x y)

end Sys2Proof.Machine
end

