-- ==== Sys2Proof/Machine/CurvePoint.lean ====
section
/-!
DEFINITION. The curve and point commands of 41_curve_point.md, each by the template of rule
R150: the destination's legality, the source reads, the modulus comparison, the curve
comparison, the computation, the write.
-/

namespace Sys2Proof.Machine

/-- CMK (rule R153). -/
def execCmk (d : CurveSel) (a b : ElemSel) (s : State) : Host.Outcome State Fault Refusal :=
  complete s do
    let i ← curveDest d
    let x ← s.readF a
    let y ← s.readF b
    check (x.prime == y.prime) .fieldMismatch
    return (s.writeC i ⟨x.val, y.val, x.prime⟩).respond false []

/-- CST (rule R154). -/
def execCst (a : CurveSel) (s : State) : Host.Outcome State Fault Refusal :=
  complete s do
    let cv ← s.readC a
    return s.respond false (curveWords cv)

/-- PMK (rule R155): the modulus comparison comes before the membership test. -/
def execPmk (d : PointSel) (x y : ElemSel) (c : CurveSel) (s : State) :
    Host.Outcome State Fault Refusal :=
  complete s do
    let i ← pointDest d
    let ex ← s.readF x
    let ey ← s.readF y
    let cv ← s.readC c
    check (ex.prime == cv.p && ey.prime == cv.p) .fieldMismatch
    check (onCurve ex.val ey.val cv) (.pointNotOnCurve ex.val ey.val)
    return (s.writeP i ⟨.affine ex.val ey.val, cv⟩).respond false []

/-- PINF (rule R156). -/
def execPinf (d : PointSel) (c : CurveSel) (s : State) : Host.Outcome State Fault Refusal :=
  complete s do
    let i ← pointDest d
    let cv ← s.readC c
    return (s.writeP i ⟨.infinity, cv⟩).respond false []

/-- PMOV (rule R157). -/
def execPmov (d a : PointSel) (s : State) : Host.Outcome State Fault Refusal :=
  complete s do
    let i ← pointDest d
    let u ← s.readP a
    return (s.writeP i u).respond false []

/-- PST (rule R158). -/
def execPst (a : PointSel) (part : PointPart) (s : State) : Host.Outcome State Fault Refusal :=
  complete s do
    let u ← s.readP a
    return s.respond false <|
      match part with
      | .coords => pointWords u.pt
      | .curve => curveWords u.cv

/-- PADD (rule R171). -/
def execPadd (d a b : PointSel) (s : State) : Host.Outcome State Fault Refusal :=
  complete s do
    let i ← pointDest d
    let u ← s.readP a
    let v ← s.readP b
    let r ← pointAdd u v
    return (s.writeP i r).respond false []

/-- PDBL (rule R172): the addition of a point to itself. -/
def execPdbl (d a : PointSel) (s : State) : Host.Outcome State Fault Refusal :=
  complete s do
    let i ← pointDest d
    let u ← s.readP a
    let r ← pointAdd u u
    return (s.writeP i r).respond false []

/-- PEQ (rule R159): points of different curves are unequal, not an error. -/
def execPeq (a b : PointSel) (s : State) : Host.Outcome State Fault Refusal :=
  complete s do
    let u ← s.readP a
    let v ← s.readP b
    return s.respondTest (pointEq u v)

end Sys2Proof.Machine
end

