-- ==== Sys2Proof/Machine/ScalarMul.lean ====
section
/-!
DEFINITION. The scalar multiplications of 42_scalar_mul_secp256k1.md, each by the template of
rule R190. The whole loop is inside the one step.
-/

namespace Sys2Proof.Machine

/-- PMUL (rule R193): the scalar is used as it is. -/
def execPmul (d a : PointSel) (payload : WInt) (s : State) : Host.Outcome State Fault Refusal :=
  complete s do
    let i ← pointDest d
    let u ← s.readP a
    let r ← scalarMul payload.toNat u
    return (s.writeP i r).respond false []

/-- PMULN (rule R194): on `K1` only, by value, the scalar reduced modulo `SN`. -/
def execPmuln (d a : PointSel) (payload : WInt) (s : State) : Host.Outcome State Fault Refusal :=
  complete s do
    let i ← pointDest d
    let u ← s.readP a
    check (curveEq u.cv Config.k1) .curveMismatch
    let r ← scalarMul (tmod payload.toNat Config.sn.toNat) u
    return (s.writeP i r).respond false []

end Sys2Proof.Machine
end

