-- ==== Sys2Proof/Machine/System.lean ====
section
/-!
DEFINITION. The system commands of 43_system_transfer.md: NOP, RDST, CLRST.
-/

namespace Sys2Proof.Machine

/-- NOP (rule R210). -/
def execNop (s : State) : Host.Outcome State Fault Refusal :=
  complete s (.ok (s.respond false []))

/-- RDST (rule R211): reads no register file and writes no state. -/
def execRdst (sel : StatusSel) (s : State) : Host.Outcome State Fault Refusal :=
  complete s <| .ok <| s.respond false <|
    match sel with
    | .status => [s.status]
    | .errinfo => words s.ex ++ words s.ey
    | .ident => [Config.id]

/-- CLRST (rule R212). -/
def execClrst (s : State) : Host.Outcome State Fault Refusal :=
  complete s (.ok (s.clearSticky.respond false []))

end Sys2Proof.Machine
end

