-- ==== Sys2Proof/Machine/Dispatch.lean ====
section
/-!
DEFINITION. One arm per command: `exec` calls the meaning of the command it is given.
-/

namespace Sys2Proof.Machine

/-- What a command does to the state (30_encoding.md rule R84). -/
def exec (i : Instr) (s : State) : Host.Outcome State Fault Refusal :=
  match i with
  | .nop => Sys2Proof.Machine.execNop s
  | .rdst sel => Sys2Proof.Machine.execRdst sel s
  | .clrst => Sys2Proof.Machine.execClrst s
  | .mld d payload => Sys2Proof.Machine.execMld d payload s
  | .mst a => Sys2Proof.Machine.execMst a s
  | .fld d a payload => Sys2Proof.Machine.execFld d a payload s
  | .fmov d a => Sys2Proof.Machine.execFmov d a s
  | .fst a part => Sys2Proof.Machine.execFst a part s
  | .fadd d a b => Sys2Proof.Machine.execFadd d a b s
  | .fsub d a b => Sys2Proof.Machine.execFsub d a b s
  | .fmul d a b => Sys2Proof.Machine.execFmul d a b s
  | .fmuli d a payload => Sys2Proof.Machine.execFmuli d a payload s
  | .fdiv d a b => Sys2Proof.Machine.execFdiv d a b s
  | .finv d a => Sys2Proof.Machine.execFinv d a s
  | .fpow d a neg payload => Sys2Proof.Machine.execFpow d a neg payload s
  | .fsqrt d a form => Sys2Proof.Machine.execFsqrt d a form s
  | .fisz a => Sys2Proof.Machine.execFisz a s
  | .feq a b => Sys2Proof.Machine.execFeq a b s
  | .cmk d a b => Sys2Proof.Machine.execCmk d a b s
  | .cst a => Sys2Proof.Machine.execCst a s
  | .pmk d x y c => Sys2Proof.Machine.execPmk d x y c s
  | .pinf d c => Sys2Proof.Machine.execPinf d c s
  | .pmov d a => Sys2Proof.Machine.execPmov d a s
  | .pst a part => Sys2Proof.Machine.execPst a part s
  | .padd d a b => Sys2Proof.Machine.execPadd d a b s
  | .pdbl d a => Sys2Proof.Machine.execPdbl d a s
  | .pmul d a payload => Sys2Proof.Machine.execPmul d a payload s
  | .pmuln d a payload => Sys2Proof.Machine.execPmuln d a payload s
  | .peq a b => Sys2Proof.Machine.execPeq a b s

end Sys2Proof.Machine
end

