-- ==== Sys2Proof/Machine/Step.lean ====
section
/-!
DEFINITION. The step of the machine (00_scope.md rule R11): take what the host has presented at
the command port, and execute one whole command, or reset.
-/

namespace Sys2Proof.Machine

/-- One step. With no whole command presented the engine waits (log 4). An illegal command is
one that ends with IllegalCommand, its words taken (30_encoding.md rule R88). -/
def step (s : State) : Host.Outcome State Fault Refusal :=
  match fetch s.port with
  | .waiting => .next s
  | .reset rest => .next (s.hostReset rest)
  | .command ws rest =>
    match decode ws with
    | .ok i => exec i { s with port := rest }
    | .error _ => complete { s with port := rest } (.error .illegalCommand)

/-- `s` with the words of the instruction whose table bits are `w` presented next at the command
port: the host's presenting of one command (log 1). -/
def State.withFetchWord (s : State) (nbits w : Nat) : State :=
  { s with port := present (tableWords nbits w) ++ s.port }

end Sys2Proof.Machine
end

