-- ==== Sys2Proof/Safety.lean ====
section
/-!
DEFINITION. The terms in which claims are stated: well-formed values and the invariants of
10_state.md rules R22 and R30, what counts as a safe step, which registers a command reads and
writes, and what it means for a point register to represent a point of the group.
-/

namespace Sys2Proof

/-! ### Well-formed values (00_scope.md rule R8) -/

/-- Rule R22: `prime ≥ 2` and `val < prime`. -/
abbrev Elem.Wf (e : Elem) : Prop := 2 ≤ e.prime.toNat ∧ e.val.toNat < e.prime.toNat

/-- Rule R8: `p ≥ 2`, `a < p`, `b < p`. -/
abbrev Curve.Wf (cv : Curve) : Prop :=
  2 ≤ cv.p.toNat ∧ cv.a.toNat < cv.p.toNat ∧ cv.b.toNat < cv.p.toNat

/-- The Weierstrass equation of rule R151, on exact integers. -/
abbrev Curve.Satisfied (cv : Curve) (x y : Nat) : Prop :=
  y * y % cv.p.toNat = (x * x * x + cv.a.toNat * x + cv.b.toNat) % cv.p.toNat

/-- An affine point has coordinates below `p` that satisfy the equation (rule R30). -/
def Pt.liesOn (cv : Curve) : Pt → Bool
  | .infinity => true
  | .affine x y =>
    decide (x.toNat < cv.p.toNat ∧ y.toNat < cv.p.toNat ∧ cv.Satisfied x.toNat y.toNat)

/-- The invariant of a point with its curve (rules R8, R30). -/
abbrev CPoint.Wf (u : CPoint) : Prop := u.cv.Wf ∧ u.pt.liesOn u.cv = true

/-! ### Registers as claims name them -/

/-- A register of one of the four files (rule R61: the files are disjoint). -/
inductive Reg where
  | f (i : Fin 16)
  | m (i : Fin 2)
  | c (i : Fin 2)
  | p (i : Fin 8)
  deriving DecidableEq, Repr

/-- The register a modulus selector names; the constants are no register (rule R25). -/
def ModSel.regs : ModSel → List Reg
  | .m i => [.m i]
  | .sp => []
  | .sn => []

/-- The register a curve selector names (rule R27). -/
def CurveSel.regs : CurveSel → List Reg
  | .c i => [.c i]
  | .k1 => []

/-- The register a point selector names (rule R29). -/
def PointSel.regs : PointSel → List Reg
  | .p i => [.p i]
  | .g => []

/-- The registers a command reads: its source operands (rule R84). -/
def Instr.reads : Instr → List Reg
  | .nop => []
  | .rdst _ => []
  | .clrst => []
  | .mld _ _ => []
  | .mst a => a.regs
  | .fld _ a _ => a.regs
  | .fmov _ a => [.f a]
  | .fst a _ => [.f a]
  | .fadd _ a b => [.f a, .f b]
  | .fsub _ a b => [.f a, .f b]
  | .fmul _ a b => [.f a, .f b]
  | .fmuli _ a _ => [.f a]
  | .fdiv _ a b => [.f a, .f b]
  | .finv _ a => [.f a]
  | .fpow _ a _ _ => [.f a]
  | .fsqrt _ a _ => [.f a]
  | .fisz a => [.f a]
  | .feq a b => [.f a, .f b]
  | .cmk _ a b => [.f a, .f b]
  | .cst a => a.regs
  | .pmk _ x y c => .f x :: .f y :: c.regs
  | .pinf _ c => c.regs
  | .pmov _ a => a.regs
  | .pst a _ => a.regs
  | .padd _ a b => a.regs ++ b.regs
  | .pdbl _ a => a.regs
  | .pmul _ a _ => a.regs
  | .pmuln _ a _ => a.regs
  | .peq a b => a.regs ++ b.regs

/-- The register a command writes when it succeeds: its destination (rule R84). -/
def Instr.writes : Instr → List Reg
  | .nop => []
  | .rdst _ => []
  | .clrst => []
  | .mld d _ => d.regs
  | .mst _ => []
  | .fld d _ _ => [.f d]
  | .fmov d _ => [.f d]
  | .fst _ _ => []
  | .fadd d _ _ => [.f d]
  | .fsub d _ _ => [.f d]
  | .fmul d _ _ => [.f d]
  | .fmuli d _ _ => [.f d]
  | .fdiv d _ _ => [.f d]
  | .finv d _ => [.f d]
  | .fpow d _ _ _ => [.f d]
  | .fsqrt d _ _ => [.f d]
  | .fisz _ => []
  | .feq _ _ => []
  | .cmk d _ _ => d.regs
  | .cst _ => []
  | .pmk d _ _ _ => d.regs
  | .pinf d _ => d.regs
  | .pmov d _ => d.regs
  | .pst _ _ => []
  | .padd d _ _ => d.regs
  | .pdbl d _ => d.regs
  | .pmul d _ _ => d.regs
  | .pmuln d _ _ => d.regs
  | .peq _ _ => []

/-- What a successful command changes, besides giving its response. -/
inductive Effect where
  /-- Nothing (rule R67). -/
  | none
  /-- Only `T` (rules R33, R67). -/
  | test
  /-- Its destination and `T` (rule R123). -/
  | root
  /-- Only the sticky bits (rule R212). -/
  | clear
  /-- Only its destination. -/
  | write
  deriving DecidableEq, Repr

/-- The effect of each command, from rules R33, R67, R123, R212 and the table of rule R84. -/
def Instr.effect : Instr → Effect
  | .nop => .none
  | .rdst _ => .none
  | .clrst => .clear
  | .mld _ _ => .write
  | .mst _ => .none
  | .fld _ _ _ => .write
  | .fmov _ _ => .write
  | .fst _ _ => .none
  | .fadd _ _ _ => .write
  | .fsub _ _ _ => .write
  | .fmul _ _ _ => .write
  | .fmuli _ _ _ => .write
  | .fdiv _ _ _ => .write
  | .finv _ _ => .write
  | .fpow _ _ _ _ => .write
  | .fsqrt _ _ _ => .root
  | .fisz _ => .test
  | .feq _ _ => .test
  | .cmk _ _ _ => .write
  | .cst _ => .none
  | .pmk _ _ _ _ => .write
  | .pinf _ _ => .write
  | .pmov _ _ => .write
  | .pst _ _ => .none
  | .padd _ _ _ => .write
  | .pdbl _ _ => .write
  | .pmul _ _ _ => .write
  | .pmuln _ _ _ => .write
  | .peq _ _ => .test

/-- Which opcodes are followed by a payload (rule R80). -/
abbrev payloadOpcodes : List (BitVec 8) := [0x10#8, 0x20#8, 0x26#8, 0x29#8, 0x46#8, 0x47#8]

end Sys2Proof

namespace Sys2Proof.Machine

/-- The valid bit of a register (rule R23). -/
def State.validBit (s : State) : Reg → Bool
  | .f i => s.f[i].isSome
  | .m i => s.m[i].isSome
  | .c i => s.c[i].isSome
  | .p i => s.p[i].isSome

/-- The modulus that a selector stands for in a state: a valid register or a constant. -/
def State.HoldsM (s : State) (a : ModSel) (v : WInt) : Prop :=
  match a with
  | .m i => s.m[i] = some v
  | .sp => v = Config.sp
  | .sn => v = Config.sn

/-- The curve that a selector stands for in a state. -/
def State.HoldsC (s : State) (a : CurveSel) (v : Curve) : Prop :=
  match a with
  | .c i => s.c[i] = some v
  | .k1 => v = Config.k1

/-- The point that a selector stands for in a state. -/
def State.HoldsP (s : State) (a : PointSel) (v : CPoint) : Prop :=
  match a with
  | .p i => s.p[i] = some v
  | .g => v = Config.g

/-- The invariant of the register files: rules R22 (elements), R24 (moduli), R26 (curves) and
R30 (points). -/
structure State.Inv (s : State) : Prop where
  elems : ∀ (i : Fin 16) (e : Elem), s.f[i] = some e → e.Wf
  moduli : ∀ (i : Fin 2) (v : WInt), s.m[i] = some v → 2 ≤ v.toNat
  curves : ∀ (i : Fin 2) (cv : Curve), s.c[i] = some cv → cv.Wf
  points : ∀ (i : Fin 8) (u : CPoint), s.p[i] = some u → u.Wf

/-- A response as rules R90, R91 and R231 allow it: a code of the table, no flag and no data
with an error, and one of the data lengths of rule R91. -/
abbrev Response.Wf (r : Response) : Prop :=
  r.err.toNat ≤ 7 ∧ (r.err ≠ 0#8 → r.flag = false ∧ r.data = []) ∧
    r.data.length ∈ [0, 1, 8, 16, 17, 24]

/-- Every response the engine has returned is as the rules allow it. -/
def State.ResponsesWf (s : State) : Prop := ∀ r ∈ s.responses, r.Wf

/-- A safe outcome: the machine goes on, in a state that has the invariant. -/
def Safe (o : Host.Outcome State Fault Refusal) : Prop := ∃ t, o = .next t ∧ t.Inv

/-! ### The scalar loop as a relation -/

/-- The `while` loop of 42_scalar_mul_secp256k1.md rule R192, with no bound on its iterations:
`ScalarRun k result term r` says that the loop entered with these values ends with `r`. -/
inductive ScalarRun : Nat → CPoint → CPoint → Except Err CPoint → Prop
  | done (result term : CPoint) : ScalarRun 0 result term (.ok result)
  | addRaises (k : Nat) (result term : CPoint) (e : Err) (hk : k % 2 = 1)
      (ha : pointAdd result term = .error e) : ScalarRun k result term (.error e)
  | doubleRaises (k : Nat) (result term result' : CPoint) (e : Err) (hk : k ≠ 0)
      (ha : if k % 2 = 1 then pointAdd result term = .ok result' else result' = result)
      (hd : pointAdd term term = .error e) : ScalarRun k result term (.error e)
  | again (k : Nat) (result term result' term' : CPoint) (r : Except Err CPoint) (hk : k ≠ 0)
      (ha : if k % 2 = 1 then pointAdd result term = .ok result' else result' = result)
      (hd : pointAdd term term = .ok term') (h : ScalarRun (k / 2) result' term' r) :
      ScalarRun k result term r

/-! ### The group a curve's points form -/

/-- The curve over the field of its modulus, as Mathlib has Weierstrass curves. -/
def weierstrass (cv : Curve) : WeierstrassCurve.Affine (ZMod cv.p.toNat) :=
  ⟨0, 0, 0, (cv.a.toNat : ZMod cv.p.toNat), (cv.b.toNat : ZMod cv.p.toNat)⟩

/-- The register value `u` stands for the point `P` of the curve's group. -/
def Represents (cv : Curve) (P : (weierstrass cv).Point) (u : CPoint) : Prop :=
  u.cv = cv ∧
    match P with
    | .zero => u.pt = .infinity
    | .some x y _ =>
      ∃ x' y' : WInt, u.pt = .affine x' y' ∧ x'.toNat < cv.p.toNat ∧ y'.toNat < cv.p.toNat ∧
        (x'.toNat : ZMod cv.p.toNat) = x ∧ (y'.toNat : ZMod cv.p.toNat) = y

end Sys2Proof.Machine
end

