-- ==== Sys2Proof/Certificates/Slice0/Obligations.lean ====
section
/-!
DEFINITION. The statements for the provers, made from the numbered rules of spec/. Each
docstring says which rule it formalises. An error's effect is written out as a state: the
sticky bit of code `c` is bit `c - 1` of `sticky` (10_state.md rule R34), and the response has
the code, no flag and no data (60_exceptions.md rule R236).
-/

open Sys2Proof Sys2Proof.Machine

/-! ### Encodings -/

/-- Worked encodings of 30_encoding.md section 7, one or more of every family, decode to the
commands they stand for. -/
def Obligations.WorkedEncodingsDecode : Prop :=
  decode [0x01000000#32] = .ok .nop ∧
  decode [0x02000001#32] = .ok (.rdst .errinfo) ∧
  decode [0x10000000#32, 0#32, 0#32, 0#32, 0#32, 0#32, 0#32, 0#32, 0x0000000D#32] =
    .ok (.mld (.m 0) 13#256) ∧
  decode [0x20120000#32, 0#32, 0#32, 0#32, 0#32, 0#32, 0#32, 0#32, 0x00000005#32] =
    .ok (.fld 1 .sp 5#256) ∧
  decode [0x23312000#32] = .ok (.fadd 3 1 2) ∧
  decode [0x29100001#32, 0#32, 0#32, 0#32, 0#32, 0#32, 0#32, 0#32, 0x00000003#32] =
    .ok (.fpow 1 0 true 3#256) ∧
  decode [0x2A430003#32] = .ok (.fsqrt 4 3 .odd) ∧
  decode [0x30001000#32] = .ok (.cmk (.c 0) 0 1) ∧
  decode [0x40145200#32] = .ok (.pmk (.p 1) 4 5 .k1) ∧
  decode [0x44201000#32] = .ok (.padd (.p 2) (.p 0) (.p 1)) ∧
  decode [0x47080000#32, 0#32, 0#32, 0#32, 0#32, 0#32, 0#32, 0#32, 0x00001389#32] =
    .ok (.pmuln (.p 0) .g 5001#256) ∧
  decode [0x48008000#32] = .ok (.peq (.p 0) .g)

/-- Decoding the words of a legal command gives the command back, every operand at every value
(30_encoding.md rules R80 to R84). -/
def Obligations.DecodeOfEncodeIsIdentity : Prop :=
  ∀ i : Instr, i.wellFormed = true → decode (encode i) = .ok i

/-- The other direction: the only words that decode are the encodings of legal commands, so a
set bit in an unused field, an unlisted `fn` or a selector out of range is always rejected
(rules R85, R86). -/
def Obligations.DecodedWordsAreTheEncoding : Prop :=
  ∀ (ws : List Word) (i : Instr), decode ws = .ok i → i.wellFormed = true ∧ encode i = ws

/-- Rule R80: how many words the engine takes is decided by bits 31:24 of the header alone,
whatever the other bits are; the command, legal or not, then gets one response. -/
def Obligations.LengthIsDecidedByOpcodeAlone : Prop :=
  ∀ (s : State) (h : Word) (payload : List Word) (rest : List PortEvent),
    payload.length = (if h.extractLsb' 24 8 ∈ payloadOpcodes then 8 else 0) →
    s.port = present (h :: payload) ++ rest →
    ∃ (t : State) (r : Response),
      step s = .next t ∧ t.port = rest ∧ t.responses = s.responses ++ [r]

/-- Rule R87: every opcode the table does not list is illegal, and such a command is one word
long. -/
def Obligations.UndefinedOpcodeIsIllegal : Prop :=
  ∀ (s : State) (h : Word) (rest : List PortEvent) (op : Nat),
    op = (h.extractLsb' 24 8).toNat →
    (op = 0x00 ∨ (0x04 ≤ op ∧ op ≤ 0x0F) ∨ (0x12 ≤ op ∧ op ≤ 0x1F) ∨ (0x2D ≤ op ∧ op ≤ 0x2F) ∨
      (0x32 ≤ op ∧ op ≤ 0x3F) ∨ (0x49 ≤ op ∧ op ≤ 0xFF)) →
    s.port = .word h :: rest →
    step s = .next { s with
      port := rest
      sticky := s.sticky ||| 0b0001000#7
      responses := s.responses ++ [⟨4#8, false, []⟩] }

/-- Rule R88: a command that does not decode ends with IllegalCommand whatever the registers
hold, and its payload words, if its opcode calls for them, are taken and discarded; which
commands these are is decided by the header alone. -/
def Obligations.IllegalCommandTakesItsWords : Prop :=
  (∀ (s : State) (h : Word) (payload : List Word) (rest : List PortEvent) (e : Illegal),
    payload.length = (if h.extractLsb' 24 8 ∈ payloadOpcodes then 8 else 0) →
    decode (h :: payload) = .error e →
    s.port = present (h :: payload) ++ rest →
    step s = .next { s with
      port := rest
      sticky := s.sticky ||| 0b0001000#7
      responses := s.responses ++ [⟨4#8, false, []⟩] }) ∧
  (∀ (h : Word) (payload payload' : List Word) (e : Illegal), payload.length = payload'.length →
    decode (h :: payload) = .error e → decode (h :: payload') = .error e)

/-- Rules R25, R27, R29, R86: a constant as destination. Its words do not decode; and the
syntax term, which no words stand for, also ends with IllegalCommand (the model's choice,
log 10). -/
def Obligations.ConstantDestinationIsIllegal : Prop :=
  ∀ (i : Instr) (s : State), i.wellFormed = false →
    decode (encode i) = .error .badSelector ∧
    exec i s = .next { s with
      sticky := s.sticky ||| 0b0001000#7
      responses := s.responses ++ [⟨4#8, false, []⟩] }

/-! ### The step -/

/-- A step runs the decoded command in the state whose command port has lost the command's
words, and adds nothing else (00_scope.md rule R11). -/
def Obligations.StepRunsTheDecodedCommand : Prop :=
  ∀ (s : State) (ws : List Word) (i : Instr) (rest : List PortEvent),
    decode ws = .ok i → s.port = present ws ++ rest → step s = exec i { s with port := rest }

/-- With no whole command presented the engine does nothing (the model's choice, log 4). -/
def Obligations.EngineWaitsForAWholeCommand : Prop :=
  (∀ s : State, s.port = [] → step s = .next s) ∧
  (∀ (s : State) (h : Word) (payload : List Word),
    h.extractLsb' 24 8 ∈ payloadOpcodes → payload.length < 8 →
    s.port = present (h :: payload) → step s = .next s)

/-- 70_reset_and_hazards.md rule R260: reset leaves exactly the state of 10_state.md rule R44.
That what follows at the port and the responses given are kept is the model's (log 2, 3). -/
def Obligations.ResetEventLeavesResetState : Prop :=
  ∀ (s : State) (rest : List PortEvent), s.port = .reset :: rest →
    step s = .next { State.reset with port := rest, responses := s.responses }

/-- Rule R261: a command of which only some words have been presented when reset arrives is
discarded whole, its words with it, and produces no response. -/
def Obligations.ResetDiscardsAPartialCommand : Prop :=
  ∀ (s : State) (h : Word) (payload : List Word) (rest : List PortEvent),
    h.extractLsb' 24 8 ∈ payloadOpcodes → payload.length < 8 →
    s.port = present (h :: payload) ++ .reset :: rest →
    step s = .next { State.reset with port := rest, responses := s.responses }

/-- 10_state.md rule R44: every valid bit, `T`, every sticky bit, `EX` and `EY` are zero after
reset, and so is `STATUS`. -/
def Obligations.ResetValues : Prop :=
  (∀ r : Reg, State.reset.validBit r = false) ∧ State.reset.t = false ∧
    State.reset.sticky = 0#7 ∧ State.reset.ex = 0#256 ∧ State.reset.ey = 0#256 ∧
    exec (.rdst .status) State.reset =
      .next { State.reset with responses := [⟨0#8, false, [0#32]⟩] }

/-- The invariant of rules R22 and R30 holds after reset. -/
def Obligations.InvariantHoldsAtReset : Prop := State.reset.Inv ∧ State.reset.ResponsesWf

/-- Rules R22, R30: every step goes on, and keeps the invariant of the register files. -/
def Obligations.StepIsSafe : Prop := ∀ s : State, s.Inv → Safe (step s)

/-- Rules R90, R91, R231: every step keeps the responses as the rules allow them. -/
def Obligations.StepKeepsResponsesWellFormed : Prop :=
  ∀ s t : State, s.ResponsesWf → step s = .next t → t.ResponsesWf

/-- Rules R11 and R238: the step is total (no error halts the engine), and adds at most one
response to those given (rule R241). -/
def Obligations.StepNeverStops : Prop :=
  ∀ s : State, ∃ t : State, step s = .next t ∧
    (t.responses = s.responses ∨ ∃ r : Response, t.responses = s.responses ++ [r])

/-- Rules R90, R241: every command gives exactly one response, and takes nothing more from the
command port. -/
def Obligations.EveryCommandGivesOneResponse : Prop :=
  ∀ (i : Instr) (s : State), ∃ (t : State) (r : Response),
    exec i s = .next t ∧ t.port = s.port ∧ t.responses = s.responses ++ [r]

/-- The layout of `RESP0` (rule R90): `err` in bits 7:0, the flag in bit 8, zero above. -/
def Obligations.ResponseWordLayout : Prop :=
  ∀ r : Response, r.words = r.resp0 :: r.data ∧
    r.resp0.toNat = r.err.toNat + 2 ^ 8 * (if r.flag = true then 1 else 0)

/-- 20_memory.md rule R62: word `i` of a value is `v[W-1-32*i : W-32-32*i]`, and reading the
eight words back, or splitting the value of eight words, loses nothing. -/
def Obligations.WordOrderIsMostSignificantFirst : Prop :=
  (∀ v : WInt, (words v).length = 8) ∧
  (∀ (v : WInt) (i : Nat) (w : Word), (words v)[i]? = some w →
    w.toNat = v.toNat / 2 ^ (256 - 32 - 32 * i) % 2 ^ 32) ∧
  (∀ v : WInt, value (words v) = v) ∧
  (∀ ws : List Word, ws.length = 8 → words (value ws) = ws ∧
    (value ws).toNat = ∑ i ∈ Finset.range 8, (ws.getD i 0#32).toNat * 2 ^ (32 * (8 - 1 - i)))

/-! ### System commands -/

/-- Rule R210: NOP reads nothing and writes nothing; its word with any other bit set is
IllegalCommand. -/
def Obligations.NopOnlyResponds : Prop :=
  (∀ s : State, exec .nop s = .next { s with responses := s.responses ++ [⟨0#8, false, []⟩] }) ∧
  decode [0x01000000#32] = .ok .nop ∧
  (∀ (s : State) (h : Word) (rest : List PortEvent),
    h.extractLsb' 24 8 = 0x01#8 → h ≠ 0x01000000#32 → s.port = .word h :: rest →
    step s = .next { s with
      port := rest
      sticky := s.sticky ||| 0b0001000#7
      responses := s.responses ++ [⟨4#8, false, []⟩] })

/-- Rule R211 with R32, R35 and R36: what RDST returns, with no state written, and the
IllegalCommand of every other word of its opcode. `STATUS` has `T` in bit 0 and `STICKY[c]`, bit
`c - 1` of `sticky`, in bit `8 + c`; every other bit is zero. -/
def Obligations.RdstReturnsStatus : Prop :=
  (∀ s : State,
    (∃ w : Word, w.toNat = s.sticky.toNat * 2 ^ 9 + (if s.t = true then 1 else 0) ∧
      exec (.rdst .status) s =
        .next { s with responses := s.responses ++ [⟨0#8, false, [w]⟩] }) ∧
    exec (.rdst .errinfo) s =
      .next { s with responses := s.responses ++ [⟨0#8, false, words s.ex ++ words s.ey⟩] } ∧
    exec (.rdst .ident) s =
      .next { s with responses := s.responses ++ [⟨0#8, false, [0x4D410108#32]⟩] }) ∧
  decode [0x02000000#32] = .ok (.rdst .status) ∧
  decode [0x02000001#32] = .ok (.rdst .errinfo) ∧
  decode [0x02000002#32] = .ok (.rdst .ident) ∧
  (∀ (s : State) (h : Word) (rest : List PortEvent),
    h.extractLsb' 24 8 = 0x02#8 → h ∉ [0x02000000#32, 0x02000001#32, 0x02000002#32] →
    s.port = .word h :: rest →
    step s = .next { s with
      port := rest
      sticky := s.sticky ||| 0b0001000#7
      responses := s.responses ++ [⟨4#8, false, []⟩] })

/-- Rule R212: CLRST clears all seven sticky bits and changes nothing else; its word with any
other bit set is IllegalCommand, and then the sticky bits are not cleared. -/
def Obligations.ClrstClearsStickyOnly : Prop :=
  (∀ s : State, exec .clrst s =
    .next { s with sticky := 0#7, responses := s.responses ++ [⟨0#8, false, []⟩] }) ∧
  decode [0x03000000#32] = .ok .clrst ∧
  (∀ (s : State) (h : Word) (rest : List PortEvent),
    h.extractLsb' 24 8 = 0x03#8 → h ≠ 0x03000000#32 → s.port = .word h :: rest →
    step s = .next { s with
      port := rest
      sticky := s.sticky ||| 0b0001000#7
      responses := s.responses ++ [⟨4#8, false, []⟩] })

/-! ### Moduli and the transfer of elements -/

/-- 40_field.md rule R111: MLD writes any payload of 2 or more, and refuses 0 and 1. -/
def Obligations.MldLoadsModulus : Prop :=
  ∀ (d : Fin 2) (payload : WInt) (s : State),
    (2 ≤ payload.toNat → exec (.mld (.m d) payload) s = .next { s with
      m := s.m.set d (some payload)
      responses := s.responses ++ [⟨0#8, false, []⟩] }) ∧
    (payload.toNat < 2 → exec (.mld (.m d) payload) s = .next { s with
      sticky := s.sticky ||| 0b0100000#7
      responses := s.responses ++ [⟨6#8, false, []⟩] })

/-- Rule R112: MST returns the modulus, and for the constants the values of 10_state.md rules
R37 and R38. -/
def Obligations.MstReturnsModulus : Prop :=
  (∀ (a : ModSel) (v : WInt) (s : State), s.HoldsM a v →
    exec (.mst a) s = .next { s with responses := s.responses ++ [⟨0#8, false, words v⟩] }) ∧
  (∀ s : State, exec (.mst .sp) s = .next { s with
    responses := s.responses ++ [⟨0#8, false, words (BitVec.ofNat 256 (2 ^ 256 - 2 ^ 32 - 977))⟩] })

/-- Rule R113: FLD reduces its payload modulo the modulus, and the element carries the
modulus. -/
def Obligations.FldReducesPayload : Prop :=
  ∀ (d : ElemSel) (a : ModSel) (m payload : WInt) (s : State), s.HoldsM a m → 2 ≤ m.toNat →
    ∃ r : Elem, r.prime = m ∧ r.val.toNat = payload.toNat % m.toNat ∧
      exec (.fld d a payload) s = .next { s with
        f := s.f.set d (some r)
        responses := s.responses ++ [⟨0#8, false, []⟩] }

/-- Rules R114, R115: FMOV copies value and modulus; FST returns either. -/
def Obligations.ElementTransfers : Prop :=
  ∀ (d a : ElemSel) (x : Elem) (s : State), s.f[a] = some x →
    exec (.fmov d a) s = .next { s with
      f := s.f.set d (some x)
      responses := s.responses ++ [⟨0#8, false, []⟩] } ∧
    exec (.fst a .value) s =
      .next { s with responses := s.responses ++ [⟨0#8, false, words x.val⟩] } ∧
    exec (.fst a .prime) s =
      .next { s with responses := s.responses ++ [⟨0#8, false, words x.prime⟩] }

/-! ### Field arithmetic -/

/-- Rule R116: FADD, for every destination and every two sources, the same one included. -/
def Obligations.FaddAddsModuloThePrime : Prop :=
  ∀ (d a b : ElemSel) (x y : Elem) (s : State),
    s.f[a] = some x → s.f[b] = some y → x.Wf → x.prime = y.prime →
    ∃ r : Elem, r.prime = x.prime ∧
      r.val.toNat = (x.val.toNat + y.val.toNat) % x.prime.toNat ∧
      exec (.fadd d a b) s = .next { s with
        f := s.f.set d (some r)
        responses := s.responses ++ [⟨0#8, false, []⟩] }

/-- Rule R117: FSUB, a true modulo of the difference, never negative. -/
def Obligations.FsubSubtractsModuloThePrime : Prop :=
  ∀ (d a b : ElemSel) (x y : Elem) (s : State),
    s.f[a] = some x → s.f[b] = some y → x.Wf → x.prime = y.prime →
    ∃ r : Elem, r.prime = x.prime ∧
      (r.val.toNat : Int) = ((x.val.toNat : Int) - y.val.toNat) % x.prime.toNat ∧
      exec (.fsub d a b) s = .next { s with
        f := s.f.set d (some r)
        responses := s.responses ++ [⟨0#8, false, []⟩] }

/-- Rules R118, R119: FMUL and FMULI, the product formed exactly before the reduction; the
multiplier of FMULI is any payload. -/
def Obligations.FmulMultipliesModuloThePrime : Prop :=
  (∀ (d a b : ElemSel) (x y : Elem) (s : State),
    s.f[a] = some x → s.f[b] = some y → x.Wf → x.prime = y.prime →
    ∃ r : Elem, r.prime = x.prime ∧
      r.val.toNat = (x.val.toNat * y.val.toNat) % x.prime.toNat ∧
      exec (.fmul d a b) s = .next { s with
        f := s.f.set d (some r)
        responses := s.responses ++ [⟨0#8, false, []⟩] }) ∧
  (∀ (d a : ElemSel) (payload : WInt) (x : Elem) (s : State), s.f[a] = some x → x.Wf →
    ∃ r : Elem, r.prime = x.prime ∧
      r.val.toNat = (x.val.toNat * payload.toNat) % x.prime.toNat ∧
      exec (.fmuli d a payload) s = .next { s with
        f := s.f.set d (some r)
        responses := s.responses ++ [⟨0#8, false, []⟩] })

/-- Rule R120 with R9: FPOW reduces the signed exponent modulo `p - 1` and raises the base to
it; the power with exponent 0 is 1 for every base. -/
def Obligations.FpowRaisesToTheReducedExponent : Prop :=
  ∀ (d a : ElemSel) (neg : Bool) (payload : WInt) (x : Elem) (s : State) (e : Int),
    s.f[a] = some x → x.Wf →
    e = (if neg = true then -(payload.toNat : Int) else (payload.toNat : Int)) →
    ∃ r : Elem, r.prime = x.prime ∧
      r.val.toNat =
        x.val.toNat ^ (e % ((x.prime.toNat : Int) - 1)).toNat % x.prime.toNat ∧
      exec (.fpow d a neg payload) s = .next { s with
        f := s.f.set d (some r)
        responses := s.responses ++ [⟨0#8, false, []⟩] }

/-- Rules R121, R122 and R128: FDIV is `a * b^(p-2)` and FINV is `a^(p-2)`, with no error for
a zero divisor. -/
def Obligations.FdivAndFinvByFermat : Prop :=
  (∀ (d a b : ElemSel) (x y : Elem) (s : State),
    s.f[a] = some x → s.f[b] = some y → x.Wf → x.prime = y.prime →
    ∃ r : Elem, r.prime = x.prime ∧
      r.val.toNat =
        (x.val.toNat * y.val.toNat ^ (x.prime.toNat - 2)) % x.prime.toNat ∧
      exec (.fdiv d a b) s = .next { s with
        f := s.f.set d (some r)
        responses := s.responses ++ [⟨0#8, false, []⟩] }) ∧
  (∀ (d a : ElemSel) (x : Elem) (s : State), s.f[a] = some x → x.Wf →
    ∃ r : Elem, r.prime = x.prime ∧
      r.val.toNat = x.val.toNat ^ (x.prime.toNat - 2) % x.prime.toNat ∧
      exec (.finv d a) s = .next { s with
        f := s.f.set d (some r)
        responses := s.responses ++ [⟨0#8, false, []⟩] })

/-- Rule R122: for a prime modulus and a nonzero element, FINV gives an inverse. -/
def Obligations.FinvIsAnInverseForPrimes : Prop :=
  ∀ (d a : ElemSel) (x : Elem) (s : State),
    s.f[a] = some x → x.Wf → Nat.Prime x.prime.toNat → x.val ≠ 0#256 →
    ∃ r : Elem, r.prime = x.prime ∧ r.val.toNat < x.prime.toNat ∧
      (x.val.toNat * r.val.toNat) % x.prime.toNat = 1 ∧
      exec (.finv d a) s = .next { s with
        f := s.f.set d (some r)
        responses := s.responses ++ [⟨0#8, false, []⟩] }

/-- Rules R128, R129: a zero divisor and the inverse of zero are no errors, with the values of
the rule for `p ≥ 3` and for `p = 2`; and FPOW of zero is 1 for every exponent that is a multiple
of `p - 1`, the exponent 0 included. -/
def Obligations.ZeroOperandsAreNotErrors : Prop :=
  (∀ (d a b : ElemSel) (x y : Elem) (s : State),
    s.f[a] = some x → s.f[b] = some y → x.Wf → x.prime = y.prime → y.val = 0#256 →
    exec (.fdiv d a b) s = .next { s with
      f := s.f.set d (some ⟨if x.prime.toNat = 2 then x.val else 0#256, x.prime⟩)
      responses := s.responses ++ [⟨0#8, false, []⟩] }) ∧
  (∀ (d a : ElemSel) (x : Elem) (s : State), s.f[a] = some x → x.Wf → x.val = 0#256 →
    exec (.finv d a) s = .next { s with
      f := s.f.set d (some ⟨if x.prime.toNat = 2 then 1#256 else 0#256, x.prime⟩)
      responses := s.responses ++ [⟨0#8, false, []⟩] }) ∧
  (∀ (d a : ElemSel) (neg : Bool) (payload : WInt) (x : Elem) (s : State),
    s.f[a] = some x → x.Wf → x.val = 0#256 → (x.prime.toNat - 1) ∣ payload.toNat →
    exec (.fpow d a neg payload) s = .next { s with
      f := s.f.set d (some ⟨1#256, x.prime⟩)
      responses := s.responses ++ [⟨0#8, false, []⟩] })

/-- Rule R123: FSQRT in its three forms. `beta` is the candidate; the even and odd forms take
`beta` or `p - beta` by parity; `T` and the flag tell whether `beta` squares to the operand. -/
def Obligations.FsqrtWritesTheRootCandidate : Prop :=
  ∀ (d a : ElemSel) (form : RootForm) (x : Elem) (s : State) (p beta : Nat) (root : Bool),
    s.f[a] = some x → x.Wf → p = x.prime.toNat → p % 4 = 3 →
    beta = x.val.toNat ^ ((p + 1) / 4) % p →
    root = decide (beta * beta % p = x.val.toNat) →
    ∃ r : Elem, r.prime = x.prime ∧
      r.val.toNat =
        (match form with
         | .raw => beta
         | .even => if beta % 2 = 0 then beta else (p - beta) % p
         | .odd => if beta % 2 = 1 then beta else (p - beta) % p) ∧
      exec (.fsqrt d a form) s = .next { s with
        f := s.f.set d (some r)
        t := root
        responses := s.responses ++ [⟨0#8, root, []⟩] }

/-- Rule R123: a modulus that is not 3 modulo 4 is SqrtDomain; the destination and `T` keep
what they held. -/
def Obligations.FsqrtRefusesOtherModuli : Prop :=
  ∀ (d a : ElemSel) (form : RootForm) (x : Elem) (s : State),
    s.f[a] = some x → x.prime.toNat % 4 ≠ 3 →
    exec (.fsqrt d a form) s = .next { s with
      sticky := s.sticky ||| 0b1000000#7
      responses := s.responses ++ [⟨7#8, false, []⟩] }

/-- Rules R124, R125: FISZ and FEQ write `T` and return it as the flag; elements of different
moduli are unequal. -/
def Obligations.ElementTestsWriteT : Prop :=
  (∀ (a : ElemSel) (x : Elem) (s : State), s.f[a] = some x →
    exec (.fisz a) s = .next { s with
      t := decide (x.val.toNat = 0)
      responses := s.responses ++ [⟨0#8, decide (x.val.toNat = 0), []⟩] }) ∧
  (∀ (a b : ElemSel) (x y : Elem) (s : State), s.f[a] = some x → s.f[b] = some y →
    exec (.feq a b) s = .next { s with
      t := decide (x.val = y.val ∧ x.prime = y.prime)
      responses := s.responses ++ [⟨0#8, decide (x.val = y.val ∧ x.prime = y.prime), []⟩] })

/-! ### Curves and points -/

/-- 41_curve_point.md rules R153, R154: CMK makes a curve of two elements of one modulus,
testing no property of it; CST returns a curve. -/
def Obligations.CurveCommands : Prop :=
  (∀ (d : Fin 2) (a b : ElemSel) (x y : Elem) (s : State),
    s.f[a] = some x → s.f[b] = some y → x.prime = y.prime →
    exec (.cmk (.c d) a b) s = .next { s with
      c := s.c.set d (some ⟨x.val, y.val, x.prime⟩)
      responses := s.responses ++ [⟨0#8, false, []⟩] }) ∧
  (∀ (a : CurveSel) (cv : Curve) (s : State), s.HoldsC a cv →
    exec (.cst a) s = .next { s with
      responses := s.responses ++ [⟨0#8, false, words cv.a ++ words cv.b ++ words cv.p⟩] })

/-- Rule R155: PMK makes a point that satisfies the equation, and raises PointNotOnCurve with
the coordinates for one that does not. -/
def Obligations.PmkChecksTheEquation : Prop :=
  ∀ (d : Fin 8) (a b : ElemSel) (c : CurveSel) (x y : Elem) (cv : Curve) (s : State),
    s.f[a] = some x → s.f[b] = some y → s.HoldsC c cv → x.prime = cv.p → y.prime = cv.p →
    (cv.Satisfied x.val.toNat y.val.toNat → exec (.pmk (.p d) a b c) s = .next { s with
      p := s.p.set d (some ⟨.affine x.val y.val, cv⟩)
      responses := s.responses ++ [⟨0#8, false, []⟩] }) ∧
    (¬cv.Satisfied x.val.toNat y.val.toNat → exec (.pmk (.p d) a b c) s = .next { s with
      sticky := s.sticky ||| 0b0000010#7
      ex := x.val
      ey := y.val
      responses := s.responses ++ [⟨2#8, false, []⟩] })

/-- Rules R156, R157: PINF makes the identity of a curve, PMOV copies a point. -/
def Obligations.PointConstruction : Prop :=
  (∀ (d : Fin 8) (c : CurveSel) (cv : Curve) (s : State), s.HoldsC c cv →
    exec (.pinf (.p d) c) s = .next { s with
      p := s.p.set d (some ⟨.infinity, cv⟩)
      responses := s.responses ++ [⟨0#8, false, []⟩] }) ∧
  (∀ (d : Fin 8) (a : PointSel) (u : CPoint) (s : State), s.HoldsP a u →
    exec (.pmov (.p d) a) s = .next { s with
      p := s.p.set d (some u)
      responses := s.responses ++ [⟨0#8, false, []⟩] })

/-- Rule R158 with R91: what PST returns, in each form. -/
def Obligations.PstReturnsPoint : Prop :=
  ∀ (a : PointSel) (u : CPoint) (s : State), s.HoldsP a u →
    (∀ x y : WInt, u.pt = .affine x y → exec (.pst a .coords) s = .next { s with
      responses := s.responses ++ [⟨0#8, false, 0#32 :: (words x ++ words y)⟩] }) ∧
    (u.pt = .infinity → exec (.pst a .coords) s = .next { s with
      responses := s.responses ++ [⟨0#8, false, 1#32 :: List.replicate 16 0#32⟩] }) ∧
    exec (.pst a .curve) s = .next { s with
      responses := s.responses ++ [⟨0#8, false, words u.cv.a ++ words u.cv.b ++ words u.cv.p⟩] }

/-- Rule R159: PEQ compares curve and point by value, and is no error across curves. -/
def Obligations.PeqComparesPoints : Prop :=
  ∀ (a b : PointSel) (u v : CPoint) (s : State), s.HoldsP a u → s.HoldsP b v →
    exec (.peq a b) s = .next { s with
      t := decide (u = v)
      responses := s.responses ++ [⟨0#8, decide (u = v), []⟩] }

/-- Rule R170 cases 1, 3 and 4, for PADD: an identity operand, a vertical chord, a vertical
tangent. -/
def Obligations.PaddWithoutSlope : Prop :=
  ∀ (d : Fin 8) (a b : PointSel) (u v : CPoint) (s : State),
    s.HoldsP a u → s.HoldsP b v → u.cv = v.cv →
    (u.pt = .infinity → exec (.padd (.p d) a b) s = .next { s with
      p := s.p.set d (some v)
      responses := s.responses ++ [⟨0#8, false, []⟩] }) ∧
    (v.pt = .infinity → exec (.padd (.p d) a b) s = .next { s with
      p := s.p.set d (some u)
      responses := s.responses ++ [⟨0#8, false, []⟩] }) ∧
    (∀ x y1 y2 : WInt, u.pt = .affine x y1 → v.pt = .affine x y2 → (y1 ≠ y2 ∨ y1 = 0#256) →
      exec (.padd (.p d) a b) s = .next { s with
        p := s.p.set d (some ⟨.infinity, u.cv⟩)
        responses := s.responses ++ [⟨0#8, false, []⟩] })

/-- Rule R170 case 2 with R173, for PADD: the chord. The third point is written when it is on
the curve, and is PointNotOnCurve when it is not. -/
def Obligations.PaddByTheChord : Prop :=
  ∀ (d : Fin 8) (a b : PointSel) (u v : CPoint) (s : State) (x1 y1 x2 y2 : WInt)
    (p sl x3 y3 : Int),
    s.HoldsP a u → s.HoldsP b v → u.cv = v.cv → u.cv.Wf → p = u.cv.p.toNat →
    u.pt = .affine x1 y1 → v.pt = .affine x2 y2 → x1 ≠ x2 →
    sl = (((y2.toNat : Int) - y1.toNat) % p *
      (((x2.toNat : Int) - x1.toNat) % p) ^ (u.cv.p.toNat - 2)) % p →
    x3 = (sl * sl - x1.toNat - x2.toNat) % p →
    y3 = (sl * (x1.toNat - x3) - y1.toNat) % p →
    ∃ x y : WInt, (x.toNat : Int) = x3 ∧ (y.toNat : Int) = y3 ∧
      (u.cv.Satisfied x.toNat y.toNat → exec (.padd (.p d) a b) s = .next { s with
        p := s.p.set d (some ⟨.affine x y, u.cv⟩)
        responses := s.responses ++ [⟨0#8, false, []⟩] }) ∧
      (¬u.cv.Satisfied x.toNat y.toNat → exec (.padd (.p d) a b) s = .next { s with
        sticky := s.sticky ||| 0b0000010#7
        ex := x
        ey := y
        responses := s.responses ++ [⟨2#8, false, []⟩] })

/-- Rule R170 case 5 with R173, and rule R172: the tangent, for PADD of a point to an equal
point and for PDBL; PDBL of the identity and of a point with `y = 0` is the identity. -/
def Obligations.DoublingByTheTangent : Prop :=
  (∀ (d : Fin 8) (a b : PointSel) (u : CPoint) (s : State) (x1 y1 : WInt) (p sl x3 y3 : Int),
    s.HoldsP a u → s.HoldsP b u → u.cv.Wf → p = u.cv.p.toNat →
    u.pt = .affine x1 y1 → y1 ≠ 0#256 →
    sl = ((3 * (x1.toNat : Int) * x1.toNat + u.cv.a.toNat) % p *
      ((2 * (y1.toNat : Int)) % p) ^ (u.cv.p.toNat - 2)) % p →
    x3 = (sl * sl - x1.toNat - x1.toNat) % p →
    y3 = (sl * (x1.toNat - x3) - y1.toNat) % p →
    ∃ x y : WInt, (x.toNat : Int) = x3 ∧ (y.toNat : Int) = y3 ∧
      ∀ i ∈ [Instr.padd (.p d) a b, Instr.pdbl (.p d) a],
        (u.cv.Satisfied x.toNat y.toNat → exec i s = .next { s with
          p := s.p.set d (some ⟨.affine x y, u.cv⟩)
          responses := s.responses ++ [⟨0#8, false, []⟩] }) ∧
        (¬u.cv.Satisfied x.toNat y.toNat → exec i s = .next { s with
          sticky := s.sticky ||| 0b0000010#7
          ex := x
          ey := y
          responses := s.responses ++ [⟨2#8, false, []⟩] })) ∧
  (∀ (d : Fin 8) (a : PointSel) (u : CPoint) (s : State), s.HoldsP a u →
    (u.pt = .infinity ∨ ∃ x : WInt, u.pt = .affine x 0#256) →
    exec (.pdbl (.p d) a) s = .next { s with
      p := s.p.set d (some ⟨.infinity, u.cv⟩)
      responses := s.responses ++ [⟨0#8, false, []⟩] })

/-- Rule R173: for a prime modulus of 3 or more and operands that satisfy the invariant the
membership test never fails, on a singular curve too: PADD and PDBL write a point that satisfies
the invariant. -/
def Obligations.AdditionStaysOnTheCurveForPrimes : Prop :=
  ∀ (d : Fin 8) (a b : PointSel) (u v : CPoint) (s : State),
    s.HoldsP a u → s.HoldsP b v → u.cv = v.cv → u.Wf → v.Wf →
    Nat.Prime u.cv.p.toNat → 3 ≤ u.cv.p.toNat →
    (∃ q : CPoint, q.cv = u.cv ∧ q.Wf ∧ exec (.padd (.p d) a b) s = .next { s with
      p := s.p.set d (some q)
      responses := s.responses ++ [⟨0#8, false, []⟩] }) ∧
    (∃ q : CPoint, q.cv = u.cv ∧ q.Wf ∧ exec (.pdbl (.p d) a) s = .next { s with
      p := s.p.set d (some q)
      responses := s.responses ++ [⟨0#8, false, []⟩] })

/-- Rule R174: for a prime modulus PADD gives the same whichever operand comes first, errors
included. -/
def Obligations.PaddCommutes : Prop :=
  ∀ (d : Fin 8) (a b : PointSel) (u v : CPoint) (s : State),
    s.HoldsP a u → s.HoldsP b v → u.Wf → v.Wf → Nat.Prime u.cv.p.toNat →
    exec (.padd (.p d) a b) s = exec (.padd (.p d) b a) s

/-! ### Scalar multiplication -/

/-- 42_scalar_mul_secp256k1.md rule R192: `ScalarMul` is what the `while` loop gives, started
from the identity of the point's curve, for every scalar. -/
def Obligations.ScalarMulIsTheLoop : Prop :=
  ∀ (k : Nat) (u : CPoint) (r : Except Err CPoint),
    ScalarRun k ⟨.infinity, u.cv⟩ u r ↔ scalarMul k u = r

/-- Rules R193, R194, R192: PMUL runs the loop on the payload as it is, PMULN on the payload
modulo `SN` for a point of `K1`; each writes what the loop returns or, where an addition in
the loop raises PointNotOnCurve, writes no register. -/
def Obligations.ScalarCommandsRunTheLoop : Prop :=
  ∀ (d : Fin 8) (a : PointSel) (payload : WInt) (u : CPoint) (s : State) (i : Instr) (k : Nat)
    (r : Except Err CPoint),
    s.HoldsP a u →
    ((i = .pmul (.p d) a payload ∧ k = payload.toNat) ∨
      (i = .pmuln (.p d) a payload ∧ k = payload.toNat % Config.sn.toNat ∧ u.cv = Config.k1)) →
    ScalarRun k ⟨.infinity, u.cv⟩ u r →
    (∃ q : CPoint, r = .ok q ∧ exec i s = .next { s with
      p := s.p.set d (some q)
      responses := s.responses ++ [⟨0#8, false, []⟩] }) ∨
    (∃ x y : WInt, r = .error (.pointNotOnCurve x y) ∧ exec i s = .next { s with
      sticky := s.sticky ||| 0b0000010#7
      ex := x
      ey := y
      responses := s.responses ++ [⟨2#8, false, []⟩] })

/-- Rules R170, R173, R174: for a prime modulus of 3 or more, PADD of two points of the curve's
group writes their sum in the group law, and PDBL the double; PointNotOnCurve never arises. -/
def Obligations.PaddIsTheGroupLaw : Prop :=
  ∀ (cv : Curve) [Fact (Nat.Prime cv.p.toNat)] (P Q : (weierstrass cv).Point) (u v : CPoint)
    (d : Fin 8) (a b : PointSel) (s : State),
    3 ≤ cv.p.toNat → s.HoldsP a u → s.HoldsP b v → Represents cv P u → Represents cv Q v →
    (∃ q : CPoint, Represents cv (P + Q) q ∧ exec (.padd (.p d) a b) s = .next { s with
      p := s.p.set d (some q)
      responses := s.responses ++ [⟨0#8, false, []⟩] }) ∧
    (∃ q : CPoint, Represents cv (P + P) q ∧ exec (.pdbl (.p d) a) s = .next { s with
      p := s.p.set d (some q)
      responses := s.responses ++ [⟨0#8, false, []⟩] })

/-- Rules R192, R193: for a prime modulus of 3 or more, PMUL writes the `k`-fold sum of the
point in the curve's group, for every scalar, and never raises an error. -/
def Obligations.PmulIsTheKFoldSum : Prop :=
  ∀ (cv : Curve) [Fact (Nat.Prime cv.p.toNat)] (P : (weierstrass cv).Point) (u : CPoint)
    (d : Fin 8) (a : PointSel) (payload : WInt) (s : State),
    3 ≤ cv.p.toNat → s.HoldsP a u → Represents cv P u →
    ∃ q : CPoint, Represents cv (payload.toNat • P) q ∧
      exec (.pmul (.p d) a payload) s = .next { s with
        p := s.p.set d (some q)
        responses := s.responses ++ [⟨0#8, false, []⟩] }

/-- Rule R194: for every point of `K1` and every payload, PMULN writes the `(payload mod SN)`-fold
sum, and PointNotOnCurve cannot occur. -/
def Obligations.PmulnNeverLeavesTheCurve : Prop :=
  ∀ (u : CPoint) (d : Fin 8) (a : PointSel) (payload : WInt) (s : State),
    s.HoldsP a u → u.cv = Config.k1 → u.Wf →
    ∃ (_ : Fact (Nat.Prime Config.k1.p.toNat)) (P : (weierstrass Config.k1).Point) (q : CPoint),
      Represents Config.k1 P u ∧
      Represents Config.k1 ((payload.toNat % Config.sn.toNat) • P) q ∧
      exec (.pmuln (.p d) a payload) s = .next { s with
        p := s.p.set d (some q)
        responses := s.responses ++ [⟨0#8, false, []⟩] }

/-- Rules R194, R195: since `SN` times the generator is the identity, reducing the scalar
modulo `SN` changes no multiple of it: PMULN and PMUL of `G` end alike for every payload. Rests
on the digits of `SN` and `G`, which the spec marks as general knowledge (log 9). -/
def Obligations.PmulnAgreesWithPmulOnTheGenerator : Prop :=
  (∀ (d : Fin 8) (payload : WInt) (s : State),
    exec (.pmuln (.p d) .g payload) s = exec (.pmul (.p d) .g payload) s) ∧
  (∀ (d : Fin 8) (s : State), exec (.pmul (.p d) .g Config.sn) s = .next { s with
    p := s.p.set d (some ⟨.infinity, Config.k1⟩)
    responses := s.responses ++ [⟨0#8, false, []⟩] })

/-! ### Errors -/

/-- 60_exceptions.md rule R234: a legal command raises Uninit when a register it reads has its
valid bit 0, whatever the others hold, and never otherwise. -/
def Obligations.UninitExactlyWhenASourceIsInvalid : Prop :=
  ∀ (i : Instr) (s : State), i.wellFormed = true →
    ((∃ r ∈ i.reads, s.validBit r = false) → exec i s = .next { s with
      sticky := s.sticky ||| 0b0010000#7
      responses := s.responses ++ [⟨5#8, false, []⟩] }) ∧
    ((∀ r ∈ i.reads, s.validBit r = true) → ∀ (t : State) (r : Response),
      exec i s = .next t → t.responses = s.responses ++ [r] → r.err ≠ 5#8)

/-- Rule R231 code 1: FADD, FSUB, FMUL, FDIV and CMK with two elements of different moduli, and
PMK with a coordinate of another modulus than the curve's, raise FieldMismatch. -/
def Obligations.FieldMismatchRaised : Prop :=
  (∀ (d a b : ElemSel) (dc : Fin 2) (x y : Elem) (s : State),
    s.f[a] = some x → s.f[b] = some y → x.prime ≠ y.prime →
    ∀ i ∈ [Instr.fadd d a b, Instr.fsub d a b, Instr.fmul d a b, Instr.fdiv d a b,
        Instr.cmk (.c dc) a b],
      exec i s = .next { s with
        sticky := s.sticky ||| 0b0000001#7
        responses := s.responses ++ [⟨1#8, false, []⟩] }) ∧
  (∀ (d : Fin 8) (a b : ElemSel) (c : CurveSel) (x y : Elem) (cv : Curve) (s : State),
    s.f[a] = some x → s.f[b] = some y → s.HoldsC c cv → (x.prime ≠ cv.p ∨ y.prime ≠ cv.p) →
    exec (.pmk (.p d) a b c) s = .next { s with
      sticky := s.sticky ||| 0b0000001#7
      responses := s.responses ++ [⟨1#8, false, []⟩] })

/-- Rule R231 code 3: PADD of points of two curves, the identity included, and PMULN of a point
of another curve than `K1`, raise CurveMismatch. -/
def Obligations.CurveMismatchRaised : Prop :=
  (∀ (d : Fin 8) (a b : PointSel) (u v : CPoint) (s : State),
    s.HoldsP a u → s.HoldsP b v → u.cv ≠ v.cv →
    exec (.padd (.p d) a b) s = .next { s with
      sticky := s.sticky ||| 0b0000100#7
      responses := s.responses ++ [⟨3#8, false, []⟩] }) ∧
  (∀ (d : Fin 8) (a : PointSel) (payload : WInt) (u : CPoint) (s : State),
    s.HoldsP a u → u.cv ≠ Config.k1 →
    exec (.pmuln (.p d) a payload) s = .next { s with
      sticky := s.sticky ||| 0b0000100#7
      responses := s.responses ++ [⟨3#8, false, []⟩] })

/-- Rule R236: a command that ends with error code `c` sets `STICKY[c]`, writes `EX` and `EY`
for `c = 2` only, and changes nothing else; its response has no flag and no data. -/
def Obligations.ErrorsChangeNothingElse : Prop :=
  ∀ (i : Instr) (s t : State) (r : Response),
    exec i s = .next t → t.responses = s.responses ++ [r] → r.err ≠ 0#8 →
    1 ≤ r.err.toNat ∧ r.err.toNat ≤ 7 ∧ r.flag = false ∧ r.data = [] ∧
    (r.err ≠ 2#8 → t.ex = s.ex ∧ t.ey = s.ey) ∧
    t = { s with
      sticky := s.sticky ||| BitVec.ofNat 7 (2 ^ (r.err.toNat - 1))
      ex := t.ex
      ey := t.ey
      responses := s.responses ++ [r] }

/-- Rule R238: `STICKY` being set has no effect on execution. But for RDST STATUS, which
returns it, a command answers the same and leaves the same state, the sticky bits apart, whatever
they were before it. -/
def Obligations.StickyDoesNotAffectExecution : Prop :=
  ∀ (i : Instr) (s t : State) (x : BitVec 7), i ≠ .rdst .status → exec i s = .next t →
    ∃ y : BitVec 7, exec i { s with sticky := x } = .next { t with sticky := y }

/-! ### What commands leave unchanged -/

/-- The frame of every command (rules R20, R33, R34, R84): a register it does not write keeps
its value and its valid bit; `T` is written by FISZ, FEQ, PEQ and FSQRT only; `EX` and `EY` by
PointNotOnCurve only; a success changes no sticky bit, CLRST apart; the responses already given
stay. -/
def Obligations.OnlyTheDestinationChanges : Prop :=
  ∀ (i : Instr) (s t : State) (r : Response),
    exec i s = .next t → t.responses = s.responses ++ [r] →
    (∀ j : Fin 16, Reg.f j ∉ i.writes → t.f[j] = s.f[j]) ∧
    (∀ j : Fin 2, Reg.m j ∉ i.writes → t.m[j] = s.m[j]) ∧
    (∀ j : Fin 2, Reg.c j ∉ i.writes → t.c[j] = s.c[j]) ∧
    (∀ j : Fin 8, Reg.p j ∉ i.writes → t.p[j] = s.p[j]) ∧
    (i.effect ≠ .test → i.effect ≠ .root → t.t = s.t) ∧
    (r.err ≠ 2#8 → t.ex = s.ex ∧ t.ey = s.ey) ∧
    (r.err = 0#8 → i.effect ≠ .clear → t.sticky = s.sticky) ∧
    (r.err = 0#8 → ∀ q ∈ i.writes, t.validBit q = true) ∧
    t.port = s.port

/-- 20_memory.md rule R67: NOP, RDST, MST, FST, CST and PST, when they succeed, change no state
at all and give the same answer when repeated; FISZ, FEQ and PEQ change only `T`. -/
def Obligations.ReadsHaveNoSideEffects : Prop :=
  ∀ (i : Instr) (s t : State) (r : Response),
    exec i s = .next t → t.responses = s.responses ++ [r] → r.err = 0#8 →
    (i.effect = .none → t = { s with responses := s.responses ++ [r] } ∧
      exec i t = .next { t with responses := t.responses ++ [r] }) ∧
    (i.effect = .test → t = { s with t := r.flag, responses := s.responses ++ [r] })
end

