-- ==== Sys2Proof/Laws/Arith.lean ====
section
/-!
SUPPORT. The arithmetic of Machine/Arith.lean in terms of Lean's own `%` and `^`: one lemma per
function, which later proofs cite instead of unfolding it.
-/

namespace Sys2Proof.Machine

/-! ### True modulo (00_scope.md rule R7) -/

theorem tmod_natCast (n m : Nat) : tmod (n : Int) m = n % m := by
  rw [tmod, ← Int.natCast_emod, Int.toNat_natCast]

/-- The value is the true modulo of the integer (rule R7), for any modulus but 0. -/
theorem tmod_cast (v : Int) {m : Nat} (hm : m ≠ 0) : (tmod v m : Int) = v % m :=
  Int.toNat_of_nonneg (Int.emod_nonneg v (by exact_mod_cast hm))

theorem tmod_lt (v : Int) {m : Nat} (hm : 0 < m) : tmod v m < m := by
  have h : (tmod v m : Int) < m := by
    rw [tmod_cast v hm.ne']
    exact Int.emod_lt_of_pos v (by exact_mod_cast hm)
  exact_mod_cast h

/-- Modulo `m`, `tmod` changes nothing: how its results are carried to `ZMod m`. -/
theorem tmod_zmod (v : Int) {m : Nat} (hm : m ≠ 0) : ((tmod v m : Nat) : ZMod m) = (v : ZMod m) := by
  have h : ((tmod v m : Int) : ZMod m) = (v : ZMod m) := by
    rw [tmod_cast v hm, ZMod.intCast_mod]
  simpa using h

/-! ### Narrowing (rule R6) -/

theorem toWInt_toNat {v : Nat} (h : v < 2 ^ 256) : (toWInt v).toNat = v := by
  rw [toWInt, BitVec.toNat_ofNat]
  exact Nat.mod_eq_of_lt h

/-- A value below a register's modulus is stored exactly. -/
theorem toWInt_toNat_of_lt {v : Nat} (p : WInt) (h : v < p.toNat) : (toWInt v).toNat = v :=
  toWInt_toNat (h.trans p.isLt)

theorem toWInt_tmod (v : Int) (p : WInt) (hp : 2 ≤ p.toNat) :
    (toWInt (tmod v p.toNat)).toNat = tmod v p.toNat :=
  toWInt_toNat_of_lt p (tmod_lt v (by omega))

/-! ### Modular power (rule R9) -/

theorem modexpLoop_eq (n b e m : Nat) (h : e < 2 ^ n) : modexpLoop n b e m = b ^ e % m := by
  induction n generalizing b e with
  | zero => simp [modexpLoop, show e = 0 by simpa using h]
  | succ n ih =>
    by_cases he : e = 0
    · simp [modexpLoop, he]
    · have hhalf : modexpLoop n (b * b % m) (e / 2) m = (b * b) ^ (e / 2) % m := by
        rw [ih _ _ (by rw [pow_succ] at h; omega), ← Nat.pow_mod]
      have hpow : b ^ e = b ^ (e % 2) * (b * b) ^ (e / 2) := by
        rw [← pow_two, ← pow_mul, ← pow_add, Nat.mod_add_div]
      simp only [modexpLoop, he, if_false, hhalf]
      rcases Nat.mod_two_eq_zero_or_one e with h2 | h2
      · simp [hpow, h2]
      · simp [hpow, h2, Nat.mul_mod]

/-- Square and multiply computes the power of rule R9, `b^0 = 1` for every base. -/
theorem modexp_eq (b e m : Nat) : modexp b e m = b ^ e % m :=
  modexpLoop_eq _ _ _ _ Nat.lt_log2_self

/-- The field division of rule R121 on exact integers. -/
theorem fdivVal_eq (n d p : Nat) : fdivVal n d p = n * d ^ (p - 2) % p := by
  rw [fdivVal, modexp_eq]
  have h := tmod_natCast (n * (d ^ (p - 2) % p)) p
  rw [show ((n : Int) * ((d ^ (p - 2) % p : Nat) : Int)) = ((n * (d ^ (p - 2) % p) : Nat) : Int) by
    push_cast; rfl, h]
  simp [Nat.mul_mod]

/-! ### Curves -/

theorem curveEq_iff (c d : Curve) : curveEq c d = true ↔ c = d := by
  cases c; cases d
  simp [curveEq, and_assoc]

/-- The membership test decides the equation of rule R151. -/
theorem onCurve_iff (x y : WInt) (cv : Curve) :
    onCurve x y cv = true ↔ cv.Satisfied x.toNat y.toNat := by
  have h1 := tmod_natCast (y.toNat * y.toNat) cv.p.toNat
  have h2 := tmod_natCast (x.toNat * x.toNat * x.toNat + cv.a.toNat * x.toNat + cv.b.toNat)
    cv.p.toNat
  push_cast at h1 h2
  simp [onCurve, h1, h2]

end Sys2Proof.Machine
end

