-- ==== Sys2Proof/Laws/Curve.lean ====
section
/-!
SUPPORT. What point addition and the scalar loop can answer (41_curve_point.md rules R170, R173,
42_scalar_mul_secp256k1.md rule R192): the curve is kept, the result is well formed, and
PointNotOnCurve is the only error between points of one curve.
-/

namespace Sys2Proof.Machine

/-- An affine point lies on its curve when its coordinates are below the modulus and satisfy the
equation (10_state.md rule R30). -/
theorem liesOn_affine (cv : Curve) (x y : WInt) :
    (Pt.affine x y).liesOn cv = true ↔
      x.toNat < cv.p.toNat ∧ y.toNat < cv.p.toNat ∧ cv.Satisfied x.toNat y.toNat := by
  simp [Pt.liesOn]

@[simp] theorem liesOn_infinity (cv : Curve) : Pt.infinity.liesOn cv = true := rfl

/-- The third point is written exactly when it satisfies the equation (rule R173). -/
theorem thirdPoint_ok {s x1 y1 x2 : Nat} {cv : Curve} {q : CPoint} (hp : 2 ≤ cv.p.toNat)
    (h : thirdPoint s x1 y1 x2 cv = .ok q) : q.cv = cv ∧ q.pt.liesOn cv = true := by
  unfold thirdPoint at h
  simp only at h
  split at h
  · rename_i hon
    cases h
    refine ⟨rfl, (liesOn_affine _ _ _).2 ⟨?_, ?_, (onCurve_iff _ _ _).1 hon⟩⟩
    all_goals
      rw [toWInt_tmod _ _ hp]
      exact tmod_lt _ (by omega)
  · cases h

theorem thirdPoint_error {s x1 y1 x2 : Nat} {cv : Curve} {e : Err}
    (h : thirdPoint s x1 y1 x2 cv = .error e) : ∃ x y, e = .pointNotOnCurve x y := by
  unfold thirdPoint at h
  simp only at h
  split at h
  · cases h
  · cases h
    exact ⟨_, _, rfl⟩

theorem pointAdd_of_cv_ne {u v : CPoint} (h : u.cv ≠ v.cv) :
    pointAdd u v = .error .curveMismatch := by
  simp [pointAdd, curveEq_iff, h]

/-- What PointAdd can answer for points of one curve: a point of that curve, or
PointNotOnCurve. -/
theorem pointAdd_of_cv_eq {u v : CPoint} (h : u.cv = v.cv) :
    (∃ q, pointAdd u v = .ok q ∧ q.cv = u.cv ∧ (u.Wf → v.Wf → q.Wf)) ∨
      ∃ x y, pointAdd u v = .error (.pointNotOnCurve x y) := by
  have third : ∀ sl x1 y1 x2,
      (∃ q, thirdPoint sl x1 y1 x2 u.cv = .ok q ∧ q.cv = u.cv ∧ (u.Wf → v.Wf → q.Wf)) ∨
        ∃ x y, thirdPoint sl x1 y1 x2 u.cv = .error (.pointNotOnCurve x y) := by
    intro sl x1 y1 x2
    cases ht : thirdPoint sl x1 y1 x2 u.cv with
    | ok q =>
      have hcv : q.cv = u.cv := by
        unfold thirdPoint at ht
        simp only at ht
        split at ht <;> cases ht
        rfl
      exact .inl ⟨q, rfl, hcv, fun hu _ => by
        have hq := (thirdPoint_ok hu.1.1 ht).2
        exact ⟨hcv ▸ hu.1, by rw [hcv]; exact hq⟩⟩
    | error e =>
      obtain ⟨x, y, rfl⟩ := thirdPoint_error ht
      exact .inr ⟨x, y, rfl⟩
  unfold pointAdd
  simp only [(curveEq_iff _ _).2 h, Bool.not_true, Bool.false_eq_true, if_false]
  split
  · exact .inl ⟨v, rfl, h.symm, fun _ hv => hv⟩
  · exact .inl ⟨u, rfl, rfl, fun hu _ => hu⟩
  · split
    · exact third _ _ _ _
    · split
      · exact .inl ⟨_, rfl, rfl, fun hu _ => ⟨hu.1, rfl⟩⟩
      · split
        · exact .inl ⟨_, rfl, rfl, fun hu _ => ⟨hu.1, rfl⟩⟩
        · exact third _ _ _ _

theorem addIfOdd_answers (k : Nat) {result term : CPoint} (h : result.cv = term.cv) :
    (∃ q, addIfOdd k result term = .ok q ∧ q.cv = term.cv ∧ (result.Wf → term.Wf → q.Wf)) ∨
      ∃ x y, addIfOdd k result term = .error (.pointNotOnCurve x y) := by
  unfold addIfOdd
  split
  · rcases pointAdd_of_cv_eq h with ⟨q, hq, hcv, hwf⟩ | herr
    · exact .inl ⟨q, hq, hcv.trans h, hwf⟩
    · exact .inr herr
  · exact .inl ⟨result, rfl, h, fun hr _ => hr⟩

/-- The scalar loop keeps the curve and the invariant, and PointNotOnCurve is its only error. -/
theorem scalarLoop_answers (n k : Nat) (result term : CPoint) (h : result.cv = term.cv) :
    (∃ q, scalarLoop n k result term = .ok q ∧ q.cv = term.cv ∧
        (result.Wf → term.Wf → q.Wf)) ∨
      ∃ x y, scalarLoop n k result term = .error (.pointNotOnCurve x y) := by
  induction n generalizing k result term with
  | zero => exact .inl ⟨result, rfl, h, fun hr _ => hr⟩
  | succ n ih =>
    by_cases hk : k = 0
    · exact .inl ⟨result, by simp [scalarLoop, hk], h, fun hr _ => hr⟩
    · simp only [scalarLoop, hk, if_false]
      rcases addIfOdd_answers k h with ⟨q, hq, hqcv, hqwf⟩ | ⟨x, y, hx⟩
      · rcases pointAdd_of_cv_eq (rfl : term.cv = term.cv) with ⟨t', ht, htcv, htwf⟩ | ⟨x, y, hx⟩
        · simp only [hq, ht]
          rcases ih (k / 2) q t' (hqcv.trans htcv.symm) with ⟨r, hr, hrcv, hrwf⟩ | herr
          · exact .inl ⟨r, hr, hrcv.trans htcv, fun h1 h2 => hrwf (hqwf h1 h2) (htwf h2 h2)⟩
          · exact .inr herr
        · exact .inr ⟨x, y, by simp only [hq, hx]⟩
      · exact .inr ⟨x, y, by simp only [hx]⟩

/-- What ScalarMul can answer. -/
theorem scalarMul_answers (k : Nat) (u : CPoint) :
    (∃ q, scalarMul k u = .ok q ∧ q.cv = u.cv ∧ (u.Wf → q.Wf)) ∨
      ∃ x y, scalarMul k u = .error (.pointNotOnCurve x y) := by
  rcases scalarLoop_answers (k.log2 + 1) k ⟨.infinity, u.cv⟩ u rfl with ⟨q, hq, hcv, hwf⟩ | herr
  · exact .inl ⟨q, hq, hcv, fun hu => hwf ⟨hu.1, rfl⟩ hu⟩
  · exact .inr herr

end Sys2Proof.Machine
end

