-- ==== Sys2Proof/Laws/Decode.lean ====
section
/-!
SUPPORT. The decoder and the encoder piece by piece: fields of a header word, selectors, `fn`
values, and the length of a command.
-/

namespace Sys2Proof

/-! ### Header words (30_encoding.md rule R81) -/

theorem headerFields_headerWord (x : Header) : headerFields (headerWord x) = x := by
  obtain ⟨op, rd, ra, rb, rc, fn⟩ := x
  simp only [headerFields, headerWord, Header.mk.injEq]
  refine ⟨?_, ?_, ?_, ?_, ?_, ?_⟩ <;> (ext i hi; simp; grind)

theorem headerWord_headerFields (h : Word) : headerWord (headerFields h) = h := by
  ext i hi
  simp only [headerWord, headerFields]
  grind

/-! ### Selectors (10_state.md rules R21, R25, R27, R29) -/

@[simp] theorem encodeElem_toFin (r : ElemSel) : (encodeElem r).toFin = r := rfl

@[simp] theorem encodeElem_ofToFin (v : BitVec 4) : encodeElem v.toFin = v := rfl

theorem decodeMod_encodeMod (a : ModSel) : decodeMod (encodeMod a) = .ok a := by
  rcases a with i | _ | _
  · revert i; decide
  · rfl
  · rfl

theorem decodeCurve_encodeCurve (a : CurveSel) : decodeCurve (encodeCurve a) = .ok a := by
  rcases a with i | _
  · revert i; decide
  · rfl

theorem decodePoint_encodePoint (a : PointSel) : decodePoint (encodePoint a) = .ok a := by
  rcases a with i | _
  · revert i; decide
  · rfl

theorem decodeMod_eq_ok : ∀ (v : BitVec 4) (a : ModSel), decodeMod v = .ok a → encodeMod a = v := by
  intro v
  rcases v with ⟨v, hv⟩
  interval_cases v <;> simp [decodeMod, encodeMod]

theorem decodeCurve_eq_ok : ∀ (v : BitVec 4) (a : CurveSel),
    decodeCurve v = .ok a → encodeCurve a = v := by
  intro v
  rcases v with ⟨v, hv⟩
  interval_cases v <;> simp [decodeCurve, encodeCurve]

theorem decodePoint_eq_ok (v : BitVec 4) (a : PointSel) (h : decodePoint v = .ok a) :
    encodePoint a = v := by
  unfold decodePoint at h
  split at h
  · cases h
    simp [encodePoint]
  · split at h
    · rename_i h8
      cases h
      exact BitVec.eq_of_toNat_eq h8.symm
    · cases h

/-- A destination decodes only to a register, and then as a source would. -/
theorem decodeModDest_eq_ok (v : BitVec 4) (a : ModSel) :
    decodeModDest v = .ok a ↔ decodeMod v = .ok a ∧ a.writable = true := by
  unfold decodeModDest
  cases decodeMod v with
  | error e => simp [bind, Except.bind]
  | ok b =>
    cases hb : b.writable <;> simp [bind, Except.bind, hb]
    · rintro rfl; simp [hb]
    · rintro rfl; exact hb

theorem decodeCurveDest_eq_ok (v : BitVec 4) (a : CurveSel) :
    decodeCurveDest v = .ok a ↔ decodeCurve v = .ok a ∧ a.writable = true := by
  unfold decodeCurveDest
  cases decodeCurve v with
  | error e => simp [bind, Except.bind]
  | ok b =>
    cases hb : b.writable <;> simp [bind, Except.bind, hb]
    · rintro rfl; simp [hb]
    · rintro rfl; exact hb

theorem decodePointDest_eq_ok (v : BitVec 4) (a : PointSel) :
    decodePointDest v = .ok a ↔ decodePoint v = .ok a ∧ a.writable = true := by
  unfold decodePointDest
  cases decodePoint v with
  | error e => simp [bind, Except.bind]
  | ok b =>
    cases hb : b.writable <;> simp [bind, Except.bind, hb]
    · rintro rfl; simp [hb]
    · rintro rfl; exact hb

theorem decodeModDest_encodeMod {a : ModSel} (h : a.writable = true) :
    decodeModDest (encodeMod a) = .ok a := (decodeModDest_eq_ok _ _).2 ⟨decodeMod_encodeMod a, h⟩

theorem decodeCurveDest_encodeCurve {a : CurveSel} (h : a.writable = true) :
    decodeCurveDest (encodeCurve a) = .ok a :=
  (decodeCurveDest_eq_ok _ _).2 ⟨decodeCurve_encodeCurve a, h⟩

theorem decodePointDest_encodePoint {a : PointSel} (h : a.writable = true) :
    decodePointDest (encodePoint a) = .ok a :=
  (decodePointDest_eq_ok _ _).2 ⟨decodePoint_encodePoint a, h⟩

/-! ### Function bits (rule R84) -/

theorem decodeStatusSel_eq_ok (v : BitVec 8) (a : StatusSel) :
    decodeStatusSel v = .ok a ↔ encodeStatusSel a = v := by
  constructor
  · intro h
    unfold decodeStatusSel at h
    split at h <;> cases h <;> (apply BitVec.eq_of_toNat_eq; simp [encodeStatusSel, *])
  · rintro rfl; cases a <;> rfl

theorem decodeElemPart_eq_ok (v : BitVec 8) (a : ElemPart) :
    decodeElemPart v = .ok a ↔ encodeElemPart a = v := by
  constructor
  · intro h
    unfold decodeElemPart at h
    split at h <;> cases h <;> (apply BitVec.eq_of_toNat_eq; simp [encodeElemPart, *])
  · rintro rfl; cases a <;> rfl

theorem decodePointPart_eq_ok (v : BitVec 8) (a : PointPart) :
    decodePointPart v = .ok a ↔ encodePointPart a = v := by
  constructor
  · intro h
    unfold decodePointPart at h
    split at h <;> cases h <;> (apply BitVec.eq_of_toNat_eq; simp [encodePointPart, *])
  · rintro rfl; cases a <;> rfl

theorem decodeNeg_eq_ok (v : BitVec 8) (a : Bool) :
    decodeNeg v = .ok a ↔ encodeNeg a = v := by
  constructor
  · intro h
    unfold decodeNeg at h
    split at h <;> cases h <;> (apply BitVec.eq_of_toNat_eq; simp [encodeNeg, *])
  · rintro rfl; cases a <;> rfl

theorem decodeRootForm_eq_ok (v : BitVec 8) (a : RootForm) :
    decodeRootForm v = .ok a ↔ encodeRootForm a = v := by
  constructor
  · intro h
    unfold decodeRootForm at h
    split at h <;> cases h <;> (apply BitVec.eq_of_toNat_eq; simp [encodeRootForm, *])
  · rintro rfl; cases a <;> rfl

/-! ### Lengths (rule R80) -/

@[simp] theorem words_length (v : WInt) : (words v).length = 8 := by simp [words]

/-- The opcodes with a payload are the six of rule R80. -/
theorem opHasPayload_iff (op : BitVec 8) : opHasPayload op = true ↔ op ∈ payloadOpcodes := by
  simp [opHasPayload, payloadOpcodes, or_assoc]

theorem payloadLength_eq (h : Word) :
    payloadLength h = if h.extractLsb' 24 8 ∈ payloadOpcodes then 8 else 0 := by
  by_cases hp : h.extractLsb' 24 8 ∈ payloadOpcodes
  · simp [payloadLength, headerFields, (opHasPayload_iff _).2 hp, hp]
  · have : opHasPayload (h.extractLsb' 24 8) = false := by
      simpa using mt (opHasPayload_iff _).1 hp
    simp [payloadLength, headerFields, this, hp]

theorem opHasPayload_encodeFields (i : Instr) :
    opHasPayload (encodeFields i).op = i.payload?.isSome := by
  cases i <;> rfl

end Sys2Proof
end

