-- ==== Sys2Proof/Laws/State.lean ====
section
/-!
SUPPORT. One lemma per field per update of the state, so that no proof unfolds a record update.
-/

namespace Sys2Proof.Machine

variable (s : State)

/-! ### `writeF` -/

@[simp] theorem State.writeF_f (d : ElemSel) (v : Elem) :
    (s.writeF d v).f = s.f.set d (some v) := rfl

@[simp] theorem State.writeF_m (d : ElemSel) (v : Elem) :
    (s.writeF d v).m = s.m := rfl

@[simp] theorem State.writeF_c (d : ElemSel) (v : Elem) :
    (s.writeF d v).c = s.c := rfl

@[simp] theorem State.writeF_p (d : ElemSel) (v : Elem) :
    (s.writeF d v).p = s.p := rfl

@[simp] theorem State.writeF_t (d : ElemSel) (v : Elem) :
    (s.writeF d v).t = s.t := rfl

@[simp] theorem State.writeF_sticky (d : ElemSel) (v : Elem) :
    (s.writeF d v).sticky = s.sticky := rfl

@[simp] theorem State.writeF_ex (d : ElemSel) (v : Elem) :
    (s.writeF d v).ex = s.ex := rfl

@[simp] theorem State.writeF_ey (d : ElemSel) (v : Elem) :
    (s.writeF d v).ey = s.ey := rfl

@[simp] theorem State.writeF_port (d : ElemSel) (v : Elem) :
    (s.writeF d v).port = s.port := rfl

@[simp] theorem State.writeF_responses (d : ElemSel) (v : Elem) :
    (s.writeF d v).responses = s.responses := rfl

/-! ### `writeM` -/

@[simp] theorem State.writeM_f (d : Fin 2) (v : WInt) :
    (s.writeM d v).f = s.f := rfl

@[simp] theorem State.writeM_m (d : Fin 2) (v : WInt) :
    (s.writeM d v).m = s.m.set d (some v) := rfl

@[simp] theorem State.writeM_c (d : Fin 2) (v : WInt) :
    (s.writeM d v).c = s.c := rfl

@[simp] theorem State.writeM_p (d : Fin 2) (v : WInt) :
    (s.writeM d v).p = s.p := rfl

@[simp] theorem State.writeM_t (d : Fin 2) (v : WInt) :
    (s.writeM d v).t = s.t := rfl

@[simp] theorem State.writeM_sticky (d : Fin 2) (v : WInt) :
    (s.writeM d v).sticky = s.sticky := rfl

@[simp] theorem State.writeM_ex (d : Fin 2) (v : WInt) :
    (s.writeM d v).ex = s.ex := rfl

@[simp] theorem State.writeM_ey (d : Fin 2) (v : WInt) :
    (s.writeM d v).ey = s.ey := rfl

@[simp] theorem State.writeM_port (d : Fin 2) (v : WInt) :
    (s.writeM d v).port = s.port := rfl

@[simp] theorem State.writeM_responses (d : Fin 2) (v : WInt) :
    (s.writeM d v).responses = s.responses := rfl

/-! ### `writeC` -/

@[simp] theorem State.writeC_f (d : Fin 2) (v : Curve) :
    (s.writeC d v).f = s.f := rfl

@[simp] theorem State.writeC_m (d : Fin 2) (v : Curve) :
    (s.writeC d v).m = s.m := rfl

@[simp] theorem State.writeC_c (d : Fin 2) (v : Curve) :
    (s.writeC d v).c = s.c.set d (some v) := rfl

@[simp] theorem State.writeC_p (d : Fin 2) (v : Curve) :
    (s.writeC d v).p = s.p := rfl

@[simp] theorem State.writeC_t (d : Fin 2) (v : Curve) :
    (s.writeC d v).t = s.t := rfl

@[simp] theorem State.writeC_sticky (d : Fin 2) (v : Curve) :
    (s.writeC d v).sticky = s.sticky := rfl

@[simp] theorem State.writeC_ex (d : Fin 2) (v : Curve) :
    (s.writeC d v).ex = s.ex := rfl

@[simp] theorem State.writeC_ey (d : Fin 2) (v : Curve) :
    (s.writeC d v).ey = s.ey := rfl

@[simp] theorem State.writeC_port (d : Fin 2) (v : Curve) :
    (s.writeC d v).port = s.port := rfl

@[simp] theorem State.writeC_responses (d : Fin 2) (v : Curve) :
    (s.writeC d v).responses = s.responses := rfl

/-! ### `writeP` -/

@[simp] theorem State.writeP_f (d : Fin 8) (v : CPoint) :
    (s.writeP d v).f = s.f := rfl

@[simp] theorem State.writeP_m (d : Fin 8) (v : CPoint) :
    (s.writeP d v).m = s.m := rfl

@[simp] theorem State.writeP_c (d : Fin 8) (v : CPoint) :
    (s.writeP d v).c = s.c := rfl

@[simp] theorem State.writeP_p (d : Fin 8) (v : CPoint) :
    (s.writeP d v).p = s.p.set d (some v) := rfl

@[simp] theorem State.writeP_t (d : Fin 8) (v : CPoint) :
    (s.writeP d v).t = s.t := rfl

@[simp] theorem State.writeP_sticky (d : Fin 8) (v : CPoint) :
    (s.writeP d v).sticky = s.sticky := rfl

@[simp] theorem State.writeP_ex (d : Fin 8) (v : CPoint) :
    (s.writeP d v).ex = s.ex := rfl

@[simp] theorem State.writeP_ey (d : Fin 8) (v : CPoint) :
    (s.writeP d v).ey = s.ey := rfl

@[simp] theorem State.writeP_port (d : Fin 8) (v : CPoint) :
    (s.writeP d v).port = s.port := rfl

@[simp] theorem State.writeP_responses (d : Fin 8) (v : CPoint) :
    (s.writeP d v).responses = s.responses := rfl

/-! ### `writeT` -/

@[simp] theorem State.writeT_f (v : Bool) :
    (s.writeT v).f = s.f := rfl

@[simp] theorem State.writeT_m (v : Bool) :
    (s.writeT v).m = s.m := rfl

@[simp] theorem State.writeT_c (v : Bool) :
    (s.writeT v).c = s.c := rfl

@[simp] theorem State.writeT_p (v : Bool) :
    (s.writeT v).p = s.p := rfl

@[simp] theorem State.writeT_t (v : Bool) :
    (s.writeT v).t = v := rfl

@[simp] theorem State.writeT_sticky (v : Bool) :
    (s.writeT v).sticky = s.sticky := rfl

@[simp] theorem State.writeT_ex (v : Bool) :
    (s.writeT v).ex = s.ex := rfl

@[simp] theorem State.writeT_ey (v : Bool) :
    (s.writeT v).ey = s.ey := rfl

@[simp] theorem State.writeT_port (v : Bool) :
    (s.writeT v).port = s.port := rfl

@[simp] theorem State.writeT_responses (v : Bool) :
    (s.writeT v).responses = s.responses := rfl

/-! ### `clearSticky` -/

@[simp] theorem State.clearSticky_f :
    (s.clearSticky).f = s.f := rfl

@[simp] theorem State.clearSticky_m :
    (s.clearSticky).m = s.m := rfl

@[simp] theorem State.clearSticky_c :
    (s.clearSticky).c = s.c := rfl

@[simp] theorem State.clearSticky_p :
    (s.clearSticky).p = s.p := rfl

@[simp] theorem State.clearSticky_t :
    (s.clearSticky).t = s.t := rfl

@[simp] theorem State.clearSticky_sticky :
    (s.clearSticky).sticky = 0#7 := rfl

@[simp] theorem State.clearSticky_ex :
    (s.clearSticky).ex = s.ex := rfl

@[simp] theorem State.clearSticky_ey :
    (s.clearSticky).ey = s.ey := rfl

@[simp] theorem State.clearSticky_port :
    (s.clearSticky).port = s.port := rfl

@[simp] theorem State.clearSticky_responses :
    (s.clearSticky).responses = s.responses := rfl

/-! ### `respond` -/

@[simp] theorem State.respond_f (flag : Bool) (data : List Word) :
    (s.respond flag data).f = s.f := rfl

@[simp] theorem State.respond_m (flag : Bool) (data : List Word) :
    (s.respond flag data).m = s.m := rfl

@[simp] theorem State.respond_c (flag : Bool) (data : List Word) :
    (s.respond flag data).c = s.c := rfl

@[simp] theorem State.respond_p (flag : Bool) (data : List Word) :
    (s.respond flag data).p = s.p := rfl

@[simp] theorem State.respond_t (flag : Bool) (data : List Word) :
    (s.respond flag data).t = s.t := rfl

@[simp] theorem State.respond_sticky (flag : Bool) (data : List Word) :
    (s.respond flag data).sticky = s.sticky := rfl

@[simp] theorem State.respond_ex (flag : Bool) (data : List Word) :
    (s.respond flag data).ex = s.ex := rfl

@[simp] theorem State.respond_ey (flag : Bool) (data : List Word) :
    (s.respond flag data).ey = s.ey := rfl

@[simp] theorem State.respond_port (flag : Bool) (data : List Word) :
    (s.respond flag data).port = s.port := rfl

@[simp] theorem State.respond_responses (flag : Bool) (data : List Word) :
    (s.respond flag data).responses = s.responses ++ [⟨0#8, flag, data⟩] := rfl

/-! ### `hostReset` -/

@[simp] theorem State.hostReset_f (rest : List PortEvent) :
    (s.hostReset rest).f = State.reset.f := rfl

@[simp] theorem State.hostReset_m (rest : List PortEvent) :
    (s.hostReset rest).m = State.reset.m := rfl

@[simp] theorem State.hostReset_c (rest : List PortEvent) :
    (s.hostReset rest).c = State.reset.c := rfl

@[simp] theorem State.hostReset_p (rest : List PortEvent) :
    (s.hostReset rest).p = State.reset.p := rfl

@[simp] theorem State.hostReset_t (rest : List PortEvent) :
    (s.hostReset rest).t = false := rfl

@[simp] theorem State.hostReset_sticky (rest : List PortEvent) :
    (s.hostReset rest).sticky = 0#7 := rfl

@[simp] theorem State.hostReset_ex (rest : List PortEvent) :
    (s.hostReset rest).ex = 0#256 := rfl

@[simp] theorem State.hostReset_ey (rest : List PortEvent) :
    (s.hostReset rest).ey = 0#256 := rfl

@[simp] theorem State.hostReset_port (rest : List PortEvent) :
    (s.hostReset rest).port = rest := rfl

@[simp] theorem State.hostReset_responses (rest : List PortEvent) :
    (s.hostReset rest).responses = s.responses := rfl

/-! ### `raise` -/

@[simp] theorem State.raise_f (e : Err) :
    (s.raise e).f = s.f := by cases e <;> rfl

@[simp] theorem State.raise_m (e : Err) :
    (s.raise e).m = s.m := by cases e <;> rfl

@[simp] theorem State.raise_c (e : Err) :
    (s.raise e).c = s.c := by cases e <;> rfl

@[simp] theorem State.raise_p (e : Err) :
    (s.raise e).p = s.p := by cases e <;> rfl

@[simp] theorem State.raise_t (e : Err) :
    (s.raise e).t = s.t := by cases e <;> rfl

@[simp] theorem State.raise_sticky (e : Err) :
    (s.raise e).sticky = setSticky s.sticky e.code := rfl

@[simp] theorem State.raise_port (e : Err) :
    (s.raise e).port = s.port := by cases e <;> rfl

@[simp] theorem State.raise_responses (e : Err) :
    (s.raise e).responses = s.responses ++ [⟨BitVec.ofNat 8 e.code, false, []⟩] := rfl

/-- Taking PointNotOnCurve, written out (60_exceptions.md rules R236, R237). -/
theorem State.raise_pointNotOnCurve (x y : WInt) :
    s.raise (.pointNotOnCurve x y) = { s with
      sticky := s.sticky ||| 0b0000010#7
      ex := x
      ey := y
      responses := s.responses ++ [⟨2#8, false, []⟩] } := rfl

/-- Taking any other error, written out: `EX` and `EY` stay (rule R236). -/
theorem State.raise_of_code_ne_two (e : Err) (h : e.code ≠ 2) :
    s.raise e = { s with
      sticky := setSticky s.sticky e.code
      responses := s.responses ++ [⟨BitVec.ofNat 8 e.code, false, []⟩] } := by
  cases e with
  | pointNotOnCurve x y => exact absurd rfl h
  | fieldMismatch => rfl
  | curveMismatch => rfl
  | illegalCommand => rfl
  | uninit => rfl
  | badModulus => rfl
  | sqrtDomain => rfl

/-- The end of a test is a write of `T` and a response (10_state.md rule R33). -/
theorem State.respondTest_eq (b : Bool) :
    s.respondTest b = { s with t := b, responses := s.responses ++ [⟨0#8, b, []⟩] } := rfl

end Sys2Proof.Machine
end

