-- ==== Sys2Proof/Laws/Ops.lean ====
section
/-!
SUPPORT. The shared operations of Machine/Ops.lean and Machine/Operands.lean: how a command
ends, what an operand read answers, and what is taken from the command port.
-/

namespace Sys2Proof.Machine

/-! ### How a command ends -/

@[simp] theorem complete_ok (s s' : State) : complete s (.ok s') = .next s' := rfl

@[simp] theorem complete_error (s : State) (e : Err) : complete s (.error e) = .next (s.raise e) :=
  rfl

@[simp] theorem complete_pure (s s' : State) : complete s (pure s') = .next s' := rfl

/-- However a command ends, the machine goes on (60_exceptions.md rule R238). -/
theorem complete_next (s : State) (r : Except Err State) :
    ∃ t, complete s r = .next t ∧ (r = .ok t ∨ ∃ e, r = .error e ∧ t = s.raise e) := by
  cases r with
  | ok s' => exact ⟨s', rfl, .inl rfl⟩
  | error e => exact ⟨s.raise e, rfl, .inr ⟨e, rfl, rfl⟩⟩

@[simp] theorem check_true (e : Err) : check true e = .ok () := rfl

@[simp] theorem check_false (e : Err) : check false e = .error e := rfl

theorem Except.bind_ok {ε α β : Type} (a : α) (k : α → Except ε β) :
    ((Except.ok a : Except ε α) >>= k) = k a := rfl

theorem Except.bind_error {ε α β : Type} (e : ε) (k : α → Except ε β) :
    ((Except.error e : Except ε α) >>= k) = .error e := rfl

/-- A sequence succeeds exactly when its parts do. -/
theorem Except.bind_eq_ok {ε α β : Type} {x : Except ε α} {k : α → Except ε β} {b : β} :
    (x >>= k) = .ok b ↔ ∃ a, x = .ok a ∧ k a = .ok b := by
  cases x with
  | ok a => simp [Except.bind_ok]
  | error e => simp [Except.bind_error]

/-! ### Operand reads (10_state.md rules R23 to R29) -/

@[simp] theorem valid_some {α : Type} (v : α) : valid (some v) = .ok v := rfl

@[simp] theorem valid_none {α : Type} : valid (none : Option α) = .error .uninit := rfl

theorem valid_eq_ok {α : Type} {o : Option α} {v : α} : valid o = .ok v ↔ o = some v := by
  cases o <;> simp

@[simp] theorem readM_sp (s : State) : s.readM .sp = .ok Config.sp := rfl

@[simp] theorem readM_sn (s : State) : s.readM .sn = .ok Config.sn := rfl

@[simp] theorem readC_k1 (s : State) : s.readC .k1 = .ok Config.k1 := rfl

@[simp] theorem readP_g (s : State) : s.readP .g = .ok Config.g := rfl

@[simp] theorem modDest_m (i : Fin 2) : modDest (.m i) = .ok i := rfl

@[simp] theorem curveDest_c (i : Fin 2) : curveDest (.c i) = .ok i := rfl

@[simp] theorem pointDest_p (i : Fin 8) : pointDest (.p i) = .ok i := rfl

/-! ### The command port (30_encoding.md rule R80, 70_reset_and_hazards.md rule R261) -/

@[simp] theorem present_nil : present [] = [] := rfl

@[simp] theorem present_cons (w : Word) (ws : List Word) :
    present (w :: ws) = .word w :: present ws := rfl

theorem takeWords_present (ws : List Word) (rest : List PortEvent) :
    takeWords ws.length (present ws ++ rest) = .command ws rest := by
  induction ws with
  | nil => rfl
  | cons w ws ih => simp [takeWords, ih, Fetched.cons]

/-- Too few words have been presented. -/
theorem takeWords_waiting (n : Nat) (ws : List Word) (h : ws.length < n) :
    takeWords n (present ws) = .waiting := by
  induction ws generalizing n with
  | nil =>
    cases n with
    | zero => simp at h
    | succ n => rfl
  | cons w ws ih =>
    cases n with
    | zero => simp at h
    | succ n => simp [takeWords, ih n (by simpa using h), Fetched.cons]

/-- A reset before the last word discards the words before it. -/
theorem takeWords_reset (n : Nat) (ws : List Word) (rest : List PortEvent) (h : ws.length < n) :
    takeWords n (present ws ++ .reset :: rest) = .reset rest := by
  induction ws generalizing n with
  | nil =>
    cases n with
    | zero => simp at h
    | succ n => rfl
  | cons w ws ih =>
    cases n with
    | zero => simp at h
    | succ n => simp [takeWords, ih n (by simpa using h), Fetched.cons]

/-- One whole command is taken, and what follows is left. -/
theorem fetch_present (h : Word) (payload : List Word) (rest : List PortEvent)
    (hlen : payload.length = payloadLength h) :
    fetch (present (h :: payload) ++ rest) = .command (h :: payload) rest := by
  simp [fetch, ← hlen, takeWords_present, Fetched.cons]

end Sys2Proof.Machine
end

