-- ==== Sys2Proof/Laws/Exec.lean ====
section
/-!
SUPPORT. The inversion lemma of `exec`: a command either succeeds, within the frame its syntax
gives it, or takes one error in the state it started from. Whole-machine proofs cite it
instead of unfolding the meanings.
-/

namespace Sys2Proof.Machine

/-- What a success of `i` from `s` can have done. -/
structure Frame (i : Instr) (s s' : State) : Prop where
  f : ∀ j : Fin 16, Reg.f j ∉ i.writes → s'.f[j] = s.f[j]
  m : ∀ j : Fin 2, Reg.m j ∉ i.writes → s'.m[j] = s.m[j]
  c : ∀ j : Fin 2, Reg.c j ∉ i.writes → s'.c[j] = s.c[j]
  p : ∀ j : Fin 8, Reg.p j ∉ i.writes → s'.p[j] = s.p[j]
  valid : ∀ q ∈ i.writes, s'.validBit q = true
  t : i.effect ≠ .test → i.effect ≠ .root → s'.t = s.t
  sticky : i.effect ≠ .clear → s'.sticky = s.sticky
  ex : s'.ex = s.ex
  ey : s'.ey = s.ey
  port : s'.port = s.port
  responds : ∃ flag data, s'.responses = s.responses ++ [⟨0#8, flag, data⟩]

variable {i : Instr} {s : State}

theorem frame_respond (flag : Bool) (data : List Word) (hw : i.writes = []) :
    Frame i s (s.respond flag data) where
  f _ _ := rfl
  m _ _ := rfl
  c _ _ := rfl
  p _ _ := rfl
  valid q hq := by simp [hw] at hq
  t _ _ := rfl
  sticky _ := rfl
  ex := rfl
  ey := rfl
  port := rfl
  responds := ⟨_, _, rfl⟩

theorem frame_clear (hw : i.writes = []) (he : i.effect = .clear) :
    Frame i s (s.clearSticky.respond false []) where
  f _ _ := rfl
  m _ _ := rfl
  c _ _ := rfl
  p _ _ := rfl
  valid q hq := by simp [hw] at hq
  t _ _ := rfl
  sticky h := absurd he h
  ex := rfl
  ey := rfl
  port := rfl
  responds := ⟨_, _, rfl⟩

theorem frame_respondTest (b : Bool) (hw : i.writes = []) (he : i.effect = .test) :
    Frame i s (s.respondTest b) where
  f _ _ := rfl
  m _ _ := rfl
  c _ _ := rfl
  p _ _ := rfl
  valid q hq := by simp [hw] at hq
  t h _ := absurd he h
  sticky _ := rfl
  ex := rfl
  ey := rfl
  port := rfl
  responds := ⟨_, _, rfl⟩

theorem frame_writeF (d : ElemSel) (v : Elem) (hw : i.writes = [.f d]) :
    Frame i s ((s.writeF d v).respond false []) where
  f j hj := by
    have : (d : Nat) ≠ j := fun h => hj (by simp [hw, Fin.ext h])
    simp [this]
  m _ _ := rfl
  c _ _ := rfl
  p _ _ := rfl
  valid q hq := by
    obtain rfl : q = .f d := by simpa [hw] using hq
    simp [State.validBit]
  t _ _ := rfl
  sticky _ := rfl
  ex := rfl
  ey := rfl
  port := rfl
  responds := ⟨_, _, rfl⟩

theorem frame_root (d : ElemSel) (v : Elem) (b : Bool) (hw : i.writes = [.f d])
    (he : i.effect = .root) : Frame i s ((s.writeF d v).respondTest b) where
  f j hj := by
    have : (d : Nat) ≠ j := fun h => hj (by simp [hw, Fin.ext h])
    simp [State.respondTest, this]
  m _ _ := rfl
  c _ _ := rfl
  p _ _ := rfl
  valid q hq := by
    obtain rfl : q = .f d := by simpa [hw] using hq
    simp [State.validBit, State.respondTest]
  t _ h := absurd he h
  sticky _ := rfl
  ex := rfl
  ey := rfl
  port := rfl
  responds := ⟨_, _, rfl⟩

theorem frame_writeM (d : Fin 2) (v : WInt) (hw : i.writes = [.m d]) :
    Frame i s ((s.writeM d v).respond false []) where
  f _ _ := rfl
  m j hj := by
    have : (d : Nat) ≠ j := fun h => hj (by simp [hw, Fin.ext h])
    simp [this]
  c _ _ := rfl
  p _ _ := rfl
  valid q hq := by
    obtain rfl : q = .m d := by simpa [hw] using hq
    simp [State.validBit]
  t _ _ := rfl
  sticky _ := rfl
  ex := rfl
  ey := rfl
  port := rfl
  responds := ⟨_, _, rfl⟩

theorem frame_writeC (d : Fin 2) (v : Curve) (hw : i.writes = [.c d]) :
    Frame i s ((s.writeC d v).respond false []) where
  f _ _ := rfl
  m _ _ := rfl
  c j hj := by
    have : (d : Nat) ≠ j := fun h => hj (by simp [hw, Fin.ext h])
    simp [this]
  p _ _ := rfl
  valid q hq := by
    obtain rfl : q = .c d := by simpa [hw] using hq
    simp [State.validBit]
  t _ _ := rfl
  sticky _ := rfl
  ex := rfl
  ey := rfl
  port := rfl
  responds := ⟨_, _, rfl⟩

theorem frame_writeP (d : Fin 8) (v : CPoint) (hw : i.writes = [.p d]) :
    Frame i s ((s.writeP d v).respond false []) where
  f _ _ := rfl
  m _ _ := rfl
  c _ _ := rfl
  p j hj := by
    have : (d : Nat) ≠ j := fun h => hj (by simp [hw, Fin.ext h])
    simp [this]
  valid q hq := by
    obtain rfl : q = .p d := by simpa [hw] using hq
    simp [State.validBit]
  t _ _ := rfl
  sticky _ := rfl
  ex := rfl
  ey := rfl
  port := rfl
  responds := ⟨_, _, rfl⟩

/-- A command that ends by `complete` succeeds within its frame or takes one error. -/
theorem complete_inversion {r : Except Err State} (h : ∀ t, r = .ok t → Frame i s t) :
    (∃ t, complete s r = .next t ∧ Frame i s t) ∨ ∃ e, complete s r = .next (s.raise e) := by
  cases r with
  | ok t => exact .inl ⟨t, rfl, h t rfl⟩
  | error e => exact .inr ⟨e, rfl⟩

theorem elemBinary_frame {op : Elem → Elem → Elem} {d a b : ElemSel} (hw : i.writes = [.f d])
    (t : State) (h : elemBinary op d a b s = .ok t) : Frame i s t := by
  simp only [elemBinary, Except.bind_eq_ok] at h
  obtain ⟨x, -, y, -, -, -, h⟩ := h
  cases h
  exact frame_writeF _ _ hw

theorem elemUnary_frame {op : Elem → Elem} {d a : ElemSel} (hw : i.writes = [.f d])
    (t : State) (h : elemUnary op d a s = .ok t) : Frame i s t := by
  simp only [elemUnary, Except.bind_eq_ok] at h
  obtain ⟨x, -, h⟩ := h
  cases h
  exact frame_writeF _ _ hw

theorem modDest_eq_ok {d : ModSel} {j : Fin 2} (h : modDest d = .ok j) : d.regs = [.m j] := by
  cases d <;> cases h
  rfl

theorem curveDest_eq_ok {d : CurveSel} {j : Fin 2} (h : curveDest d = .ok j) :
    d.regs = [.c j] := by
  cases d <;> cases h
  rfl

theorem pointDest_eq_ok {d : PointSel} {j : Fin 8} (h : pointDest d = .ok j) :
    d.regs = [.p j] := by
  cases d <;> cases h
  rfl

/-- Every command succeeds within its frame, or takes one error in the state it started from
(60_exceptions.md rules R232, R236). -/
theorem exec_inversion (i : Instr) (s : State) :
    (∃ t, exec i s = .next t ∧ Frame i s t) ∨ ∃ e, exec i s = .next (s.raise e) := by
  cases i with
  | nop => exact .inl ⟨_, rfl, frame_respond _ _ rfl⟩
  | rdst sel => exact .inl ⟨_, rfl, frame_respond _ _ rfl⟩
  | clrst => exact .inl ⟨_, rfl, frame_clear rfl rfl⟩
  | mld d payload =>
    refine complete_inversion fun t h => ?_
    simp only [Except.bind_eq_ok] at h
    obtain ⟨j, hj, -, -, h⟩ := h
    cases h
    exact frame_writeM _ _ (modDest_eq_ok hj)
  | mst a =>
    refine complete_inversion fun t h => ?_
    simp only [Except.bind_eq_ok] at h
    obtain ⟨v, -, h⟩ := h
    cases h
    exact frame_respond _ _ rfl
  | fld d a payload =>
    refine complete_inversion fun t h => ?_
    simp only [Except.bind_eq_ok] at h
    obtain ⟨v, -, h⟩ := h
    cases h
    exact frame_writeF _ _ rfl
  | fmov d a => exact complete_inversion (elemUnary_frame rfl)
  | fst a part =>
    refine complete_inversion fun t h => ?_
    simp only [Except.bind_eq_ok] at h
    obtain ⟨v, -, h⟩ := h
    cases h
    exact frame_respond _ _ rfl
  | fadd d a b => exact complete_inversion (elemBinary_frame rfl)
  | fsub d a b => exact complete_inversion (elemBinary_frame rfl)
  | fmul d a b => exact complete_inversion (elemBinary_frame rfl)
  | fmuli d a payload => exact complete_inversion (elemUnary_frame rfl)
  | fdiv d a b => exact complete_inversion (elemBinary_frame rfl)
  | finv d a => exact complete_inversion (elemUnary_frame rfl)
  | fpow d a neg payload => exact complete_inversion (elemUnary_frame rfl)
  | fsqrt d a form =>
    refine complete_inversion fun t h => ?_
    simp only [Except.bind_eq_ok] at h
    obtain ⟨x, -, -, -, h⟩ := h
    cases h
    exact frame_root _ _ _ rfl rfl
  | fisz a =>
    refine complete_inversion fun t h => ?_
    simp only [Except.bind_eq_ok] at h
    obtain ⟨x, -, h⟩ := h
    cases h
    exact frame_respondTest _ rfl rfl
  | feq a b =>
    refine complete_inversion fun t h => ?_
    simp only [Except.bind_eq_ok] at h
    obtain ⟨x, -, y, -, h⟩ := h
    cases h
    exact frame_respondTest _ rfl rfl
  | cmk d a b =>
    refine complete_inversion fun t h => ?_
    simp only [Except.bind_eq_ok] at h
    obtain ⟨j, hj, x, -, y, -, -, -, h⟩ := h
    cases h
    exact frame_writeC _ _ (curveDest_eq_ok hj)
  | cst a =>
    refine complete_inversion fun t h => ?_
    simp only [Except.bind_eq_ok] at h
    obtain ⟨cv, -, h⟩ := h
    cases h
    exact frame_respond _ _ rfl
  | pmk d x y c =>
    refine complete_inversion fun t h => ?_
    simp only [Except.bind_eq_ok] at h
    obtain ⟨j, hj, ex, -, ey, -, cv, -, -, -, -, -, h⟩ := h
    cases h
    exact frame_writeP _ _ (pointDest_eq_ok hj)
  | pinf d c =>
    refine complete_inversion fun t h => ?_
    simp only [Except.bind_eq_ok] at h
    obtain ⟨j, hj, cv, -, h⟩ := h
    cases h
    exact frame_writeP _ _ (pointDest_eq_ok hj)
  | pmov d a =>
    refine complete_inversion fun t h => ?_
    simp only [Except.bind_eq_ok] at h
    obtain ⟨j, hj, u, -, h⟩ := h
    cases h
    exact frame_writeP _ _ (pointDest_eq_ok hj)
  | pst a part =>
    refine complete_inversion fun t h => ?_
    simp only [Except.bind_eq_ok] at h
    obtain ⟨u, -, h⟩ := h
    cases h
    exact frame_respond _ _ rfl
  | padd d a b =>
    refine complete_inversion fun t h => ?_
    simp only [Except.bind_eq_ok] at h
    obtain ⟨j, hj, u, -, v, -, r, -, h⟩ := h
    cases h
    exact frame_writeP _ _ (pointDest_eq_ok hj)
  | pdbl d a =>
    refine complete_inversion fun t h => ?_
    simp only [Except.bind_eq_ok] at h
    obtain ⟨j, hj, u, -, r, -, h⟩ := h
    cases h
    exact frame_writeP _ _ (pointDest_eq_ok hj)
  | pmul d a payload =>
    refine complete_inversion fun t h => ?_
    simp only [Except.bind_eq_ok] at h
    obtain ⟨j, hj, u, -, r, -, h⟩ := h
    cases h
    exact frame_writeP _ _ (pointDest_eq_ok hj)
  | pmuln d a payload =>
    refine complete_inversion fun t h => ?_
    simp only [Except.bind_eq_ok] at h
    obtain ⟨j, hj, u, -, -, -, r, -, h⟩ := h
    cases h
    exact frame_writeP _ _ (pointDest_eq_ok hj)
  | peq a b =>
    refine complete_inversion fun t h => ?_
    simp only [Except.bind_eq_ok] at h
    obtain ⟨u, -, v, -, h⟩ := h
    cases h
    exact frame_respondTest _ rfl rfl

end Sys2Proof.Machine
end

