-- ==== Sys2Proof/Laws/Group.lean ====
section
/-!
SUPPORT. From the engine's integers to the field of a prime modulus: the membership test is the
Weierstrass equation, the field division is division, and a point that satisfies the equation of a
nonsingular curve represents a point of its group.
-/

namespace Sys2Proof.Machine

variable {cv : Curve}

/-- Rule R151 as the Weierstrass equation over the integers modulo `p`. -/
theorem satisfied_iff_equation (cv : Curve) (x y : Nat) :
    cv.Satisfied x y ↔ (weierstrass cv).Equation (x : ZMod cv.p.toNat) (y : ZMod cv.p.toNat) := by
  have h := ZMod.natCast_eq_natCast_iff' (y * y) (x * x * x + cv.a.toNat * x + cv.b.toNat)
    cv.p.toNat
  rw [WeierstrassCurve.Affine.equation_iff, Curve.Satisfied, ← h]
  simp only [weierstrass]
  push_cast
  constructor <;> intro h <;> linear_combination h

/-- The discriminant of a short Weierstrass curve. -/
theorem weierstrass_disc (cv : Curve) :
    (weierstrass cv).Δ =
      ((-16 * (4 * (cv.a.toNat : Int) ^ 3 + 27 * (cv.b.toNat : Int) ^ 2) : Int) :
        ZMod cv.p.toNat) := by
  simp only [WeierstrassCurve.Δ, WeierstrassCurve.b₂, WeierstrassCurve.b₄, WeierstrassCurve.b₆,
    WeierstrassCurve.b₈, weierstrass]
  push_cast
  ring

/-- The field division of 41_curve_point.md rule R170 divides, when the modulus is prime and the
divisor is not zero in the field. -/
theorem fdivVal_zmod [Fact (Nat.Prime cv.p.toNat)] (n d : Int)
    (hd : (d : ZMod cv.p.toNat) ≠ 0) :
    ((fdivVal (tmod n cv.p.toNat) (tmod d cv.p.toNat) cv.p.toNat : Nat) : ZMod cv.p.toNat) =
      (n : ZMod cv.p.toNat) / d := by
  have hp := (Fact.out : Nat.Prime cv.p.toNat).two_le
  have h0 : cv.p.toNat ≠ 0 := by omega
  rw [fdivVal_eq, ZMod.natCast_mod, Nat.cast_mul, Nat.cast_pow, tmod_zmod _ h0, tmod_zmod _ h0,
    div_eq_mul_inv]
  congr 1
  apply eq_inv_of_mul_eq_one_left
  rw [← pow_succ, show cv.p.toNat - 2 + 1 = cv.p.toNat - 1 by omega]
  exact ZMod.pow_card_sub_one_eq_one hd

/-- Coordinates below the modulus are determined by their residues. -/
theorem eq_of_zmod_eq {x y : WInt} (hx : x.toNat < cv.p.toNat) (hy : y.toNat < cv.p.toNat)
    (h : (x.toNat : ZMod cv.p.toNat) = y.toNat) : x = y := by
  rw [ZMod.natCast_eq_natCast_iff', Nat.mod_eq_of_lt hx, Nat.mod_eq_of_lt hy] at h
  exact BitVec.eq_of_toNat_eq h

/-- A register point that satisfies the invariant stands for a point of the group, when the curve
is nonsingular. -/
theorem represents_of_liesOn [Fact (Nat.Prime cv.p.toNat)] (hd : (weierstrass cv).Δ ≠ 0)
    {u : CPoint} (hcv : u.cv = cv) (hu : u.pt.liesOn cv = true) :
    ∃ P : (weierstrass cv).Point, Represents cv P u := by
  obtain ⟨pt, cv'⟩ := u
  obtain rfl : cv' = cv := hcv
  cases pt with
  | infinity => exact ⟨.zero, rfl, rfl⟩
  | affine x y =>
    obtain ⟨hx, hy, hxy⟩ := (liesOn_affine _ _ _).1 hu
    have heq := (satisfied_iff_equation _ _ _).1 hxy
    exact ⟨.some _ _ ((WeierstrassCurve.Affine.equation_iff_nonsingular_of_Δ_ne_zero hd).1 heq),
      rfl, x, y, rfl, hx, hy, rfl, rfl⟩

end Sys2Proof.Machine
end

