-- ==== Sys2Proof/Laws/Operands.lean ====
section
/-!
SUPPORT. What reading an operand answers (10_state.md rules R21 to R29): the value a selector
stands for, or Uninit exactly when a register it names has its valid bit 0; and what the two
templates of the element commands give on readable operands.
-/

namespace Sys2Proof.Machine

variable {s : State}

/-! ### A value that is there -/

theorem readF_of_some {a : ElemSel} {v : Elem} (h : s.f[a] = some v) : s.readF a = .ok v := by
  rw [State.readF, h, valid_some]

theorem readM_of_holds {a : ModSel} {v : WInt} (h : s.HoldsM a v) : s.readM a = .ok v := by
  cases a <;> simp_all [State.HoldsM, State.readM]

theorem readC_of_holds {a : CurveSel} {v : Curve} (h : s.HoldsC a v) : s.readC a = .ok v := by
  cases a <;> simp_all [State.HoldsC, State.readC]

theorem readP_of_holds {a : PointSel} {v : CPoint} (h : s.HoldsP a v) : s.readP a = .ok v := by
  cases a <;> simp_all [State.HoldsP, State.readP]

/-! ### Everything a read can answer (rule R23) -/

theorem readF_answers (s : State) (a : ElemSel) :
    (∃ v, s.readF a = .ok v ∧ s.f[a] = some v ∧ s.validBit (.f a) = true) ∨
      (s.readF a = .error .uninit ∧ s.validBit (.f a) = false) := by
  simp only [State.readF, State.validBit]
  cases s.f[a] <;> simp

theorem readM_answers (s : State) (a : ModSel) :
    (∃ v, s.readM a = .ok v ∧ s.HoldsM a v ∧ ∀ r ∈ a.regs, s.validBit r = true) ∨
      (s.readM a = .error .uninit ∧ ∃ r ∈ a.regs, s.validBit r = false) := by
  cases a with
  | m i =>
    simp only [State.readM, State.HoldsM, ModSel.regs, List.mem_singleton, forall_eq,
      exists_eq_left, State.validBit]
    cases s.m[i] <;> simp
  | sp => exact .inl ⟨_, rfl, rfl, by simp [ModSel.regs]⟩
  | sn => exact .inl ⟨_, rfl, rfl, by simp [ModSel.regs]⟩

theorem readC_answers (s : State) (a : CurveSel) :
    (∃ v, s.readC a = .ok v ∧ s.HoldsC a v ∧ ∀ r ∈ a.regs, s.validBit r = true) ∨
      (s.readC a = .error .uninit ∧ ∃ r ∈ a.regs, s.validBit r = false) := by
  cases a with
  | c i =>
    simp only [State.readC, State.HoldsC, CurveSel.regs, List.mem_singleton, forall_eq,
      exists_eq_left, State.validBit]
    cases s.c[i] <;> simp
  | k1 => exact .inl ⟨_, rfl, rfl, by simp [CurveSel.regs]⟩

theorem readP_answers (s : State) (a : PointSel) :
    (∃ v, s.readP a = .ok v ∧ s.HoldsP a v ∧ ∀ r ∈ a.regs, s.validBit r = true) ∨
      (s.readP a = .error .uninit ∧ ∃ r ∈ a.regs, s.validBit r = false) := by
  cases a with
  | p i =>
    simp only [State.readP, State.HoldsP, PointSel.regs, List.mem_singleton, forall_eq,
      exists_eq_left, State.validBit]
    cases s.p[i] <;> simp
  | g => exact .inl ⟨_, rfl, rfl, by simp [PointSel.regs]⟩

/-! ### A destination (rule R86) -/

theorem modDest_of_writable {d : ModSel} (h : d.writable = true) : ∃ i, d = .m i := by
  cases d <;> simp_all [ModSel.writable]

theorem curveDest_of_writable {d : CurveSel} (h : d.writable = true) : ∃ i, d = .c i := by
  cases d <;> simp_all [CurveSel.writable]

theorem pointDest_of_writable {d : PointSel} (h : d.writable = true) : ∃ i, d = .p i := by
  cases d <;> simp_all [PointSel.writable]

/-! ### The templates of the element commands (40_field.md rule R110) -/

/-- Two readable elements of one modulus: the result is written, and the response is empty. -/
theorem elemBinary_of_some {op : Elem → Elem → Elem} {d a b : ElemSel} {x y : Elem}
    (hx : s.f[a] = some x) (hy : s.f[b] = some y) (hp : x.prime = y.prime) :
    elemBinary op d a b s = .ok ((s.writeF d (op x y)).respond false []) := by
  simp only [elemBinary, readF_of_some hx, readF_of_some hy, Except.bind_ok, hp, beq_self_eq_true,
    check_true]
  rfl

/-- Two readable elements of different moduli: FieldMismatch. -/
theorem elemBinary_of_ne {op : Elem → Elem → Elem} {d a b : ElemSel} {x y : Elem}
    (hx : s.f[a] = some x) (hy : s.f[b] = some y) (hp : x.prime ≠ y.prime) :
    elemBinary op d a b s = .error .fieldMismatch := by
  have hb : (x.prime == y.prime) = false := by simpa using hp
  simp only [elemBinary, readF_of_some hx, readF_of_some hy, Except.bind_ok, hb, check_false,
    Except.bind_error]

/-- A readable element: the result is written, and the response is empty. -/
theorem elemUnary_of_some {op : Elem → Elem} {d a : ElemSel} {x : Elem} (hx : s.f[a] = some x) :
    elemUnary op d a s = .ok ((s.writeF d (op x)).respond false []) := by
  simp only [elemUnary, readF_of_some hx, Except.bind_ok]
  rfl

end Sys2Proof.Machine
end

