-- ==== Sys2Proof/Laws/Inv.lean ====
section
/-!
SUPPORT. The invariant of the register files (10_state.md rules R22, R30) under each operation on
the state, what it says of a value that is read, and that a reduced value is a field element.
-/

namespace Sys2Proof.Machine

variable {s : State}

/-! ### Writes -/

theorem inv_writeF (h : s.Inv) (d : ElemSel) {v : Elem} (hv : v.Wf) : (s.writeF d v).Inv where
  elems i e he := by
    by_cases hd : (d : Nat) = i
    · obtain rfl := Fin.ext hd
      obtain rfl : v = e := by simpa using he
      exact hv
    · exact h.elems i e (by simpa [hd] using he)
  moduli := h.moduli
  curves := h.curves
  points := h.points

theorem inv_writeM (h : s.Inv) (d : Fin 2) {v : WInt} (hv : 2 ≤ v.toNat) :
    (s.writeM d v).Inv where
  elems := h.elems
  moduli i e he := by
    by_cases hd : (d : Nat) = i
    · obtain rfl := Fin.ext hd
      obtain rfl : v = e := by simpa using he
      exact hv
    · exact h.moduli i e (by simpa [hd] using he)
  curves := h.curves
  points := h.points

theorem inv_writeC (h : s.Inv) (d : Fin 2) {v : Curve} (hv : v.Wf) : (s.writeC d v).Inv where
  elems := h.elems
  moduli := h.moduli
  curves i e he := by
    by_cases hd : (d : Nat) = i
    · obtain rfl := Fin.ext hd
      obtain rfl : v = e := by simpa using he
      exact hv
    · exact h.curves i e (by simpa [hd] using he)
  points := h.points

theorem inv_writeP (h : s.Inv) (d : Fin 8) {v : CPoint} (hv : v.Wf) : (s.writeP d v).Inv where
  elems := h.elems
  moduli := h.moduli
  curves := h.curves
  points i e he := by
    by_cases hd : (d : Nat) = i
    · obtain rfl := Fin.ext hd
      obtain rfl : v = e := by simpa using he
      exact hv
    · exact h.points i e (by simpa [hd] using he)

theorem inv_respond (h : s.Inv) (flag : Bool) (data : List Word) : (s.respond flag data).Inv :=
  ⟨h.elems, h.moduli, h.curves, h.points⟩

theorem inv_respondTest (h : s.Inv) (b : Bool) : (s.respondTest b).Inv :=
  ⟨h.elems, h.moduli, h.curves, h.points⟩

theorem inv_clearSticky (h : s.Inv) : s.clearSticky.Inv :=
  ⟨h.elems, h.moduli, h.curves, h.points⟩

theorem inv_raise (h : s.Inv) (e : Err) : (s.raise e).Inv := by
  cases e <;> exact ⟨h.elems, h.moduli, h.curves, h.points⟩

/-! ### Reads -/

theorem readF_wf (h : s.Inv) {a : ElemSel} {v : Elem} (hv : s.readF a = .ok v) : v.Wf :=
  h.elems a v (valid_eq_ok.1 hv)

theorem readM_wf (h : s.Inv) {a : ModSel} {v : WInt} (hv : s.readM a = .ok v) : 2 ≤ v.toNat := by
  cases a with
  | m i => exact h.moduli i v (valid_eq_ok.1 hv)
  | sp => cases hv; decide +kernel
  | sn => cases hv; decide +kernel

theorem readC_wf (h : s.Inv) {a : CurveSel} {v : Curve} (hv : s.readC a = .ok v) : v.Wf := by
  cases a with
  | c i => exact h.curves i v (valid_eq_ok.1 hv)
  | k1 => cases hv; decide +kernel

/-- `G` satisfies the invariant as well (rule R40). -/
theorem readP_wf (h : s.Inv) {a : PointSel} {v : CPoint} (hv : s.readP a = .ok v) : v.Wf := by
  cases a with
  | p i => exact h.points i v (valid_eq_ok.1 hv)
  | g => cases hv; decide +kernel

/-! ### Reduced values -/

theorem reduced_wf {p : WInt} {n : Nat} (hp : 2 ≤ p.toNat) (hn : n < p.toNat) :
    (⟨toWInt n, p⟩ : Elem).Wf :=
  ⟨hp, (toWInt_toNat_of_lt p hn).trans_lt hn⟩

theorem tmod_wf {p : WInt} (hp : 2 ≤ p.toNat) (v : Int) :
    (⟨toWInt (tmod v p.toNat), p⟩ : Elem).Wf :=
  reduced_wf hp (tmod_lt v (by omega))

theorem modexp_lt (b e : Nat) {m : Nat} (hm : 2 ≤ m) : modexp b e m < m := by
  rw [modexp_eq]
  exact Nat.mod_lt _ (by omega)

end Sys2Proof.Machine
end

