-- ==== Sys2Proof/Laws/PerInstr.lean ====
section
/-!
SUPPORT. One lemma per command of the statement family `Length`: how many words a command has,
and that the engine finds out from the first of them (30_encoding.md rule R80).
-/

namespace Sys2Proof.Laws.Length

/-- The command is one word long, or nine when it has a payload, and the header it is encoded
with calls for the other words. -/
def Statement (i : Instr) : Prop :=
  (encode i).length = (if i.payload?.isSome then 9 else 1) ∧
    (encode i).length = 1 + payloadLength (headerWord (encodeFields i))

theorem of_payload (i : Instr) : Statement i := by
  have hlen : payloadLength (headerWord (encodeFields i)) = if i.payload?.isSome then 8 else 0 := by
    rw [payloadLength, headerFields_headerWord, opHasPayload_encodeFields]
  rw [Statement, hlen, encode]
  cases i.payload? <;> simp

theorem nop : Statement .nop := of_payload _

theorem rdst (sel : StatusSel) : Statement (.rdst sel) := of_payload _

theorem clrst : Statement .clrst := of_payload _

theorem mld (d : ModSel) (payload : WInt) : Statement (.mld d payload) := of_payload _

theorem mst (a : ModSel) : Statement (.mst a) := of_payload _

theorem fld (d : ElemSel) (a : ModSel) (payload : WInt) : Statement (.fld d a payload) := of_payload _

theorem fmov (d : ElemSel) (a : ElemSel) : Statement (.fmov d a) := of_payload _

theorem fst (a : ElemSel) (part : ElemPart) : Statement (.fst a part) := of_payload _

theorem fadd (d : ElemSel) (a : ElemSel) (b : ElemSel) : Statement (.fadd d a b) := of_payload _

theorem fsub (d : ElemSel) (a : ElemSel) (b : ElemSel) : Statement (.fsub d a b) := of_payload _

theorem fmul (d : ElemSel) (a : ElemSel) (b : ElemSel) : Statement (.fmul d a b) := of_payload _

theorem fmuli (d : ElemSel) (a : ElemSel) (payload : WInt) : Statement (.fmuli d a payload) := of_payload _

theorem fdiv (d : ElemSel) (a : ElemSel) (b : ElemSel) : Statement (.fdiv d a b) := of_payload _

theorem finv (d : ElemSel) (a : ElemSel) : Statement (.finv d a) := of_payload _

theorem fpow (d : ElemSel) (a : ElemSel) (neg : Bool) (payload : WInt) : Statement (.fpow d a neg payload) := of_payload _

theorem fsqrt (d : ElemSel) (a : ElemSel) (form : RootForm) : Statement (.fsqrt d a form) := of_payload _

theorem fisz (a : ElemSel) : Statement (.fisz a) := of_payload _

theorem feq (a : ElemSel) (b : ElemSel) : Statement (.feq a b) := of_payload _

theorem cmk (d : CurveSel) (a : ElemSel) (b : ElemSel) : Statement (.cmk d a b) := of_payload _

theorem cst (a : CurveSel) : Statement (.cst a) := of_payload _

theorem pmk (d : PointSel) (x : ElemSel) (y : ElemSel) (c : CurveSel) : Statement (.pmk d x y c) := of_payload _

theorem pinf (d : PointSel) (c : CurveSel) : Statement (.pinf d c) := of_payload _

theorem pmov (d : PointSel) (a : PointSel) : Statement (.pmov d a) := of_payload _

theorem pst (a : PointSel) (part : PointPart) : Statement (.pst a part) := of_payload _

theorem padd (d : PointSel) (a : PointSel) (b : PointSel) : Statement (.padd d a b) := of_payload _

theorem pdbl (d : PointSel) (a : PointSel) : Statement (.pdbl d a) := of_payload _

theorem pmul (d : PointSel) (a : PointSel) (payload : WInt) : Statement (.pmul d a payload) := of_payload _

theorem pmuln (d : PointSel) (a : PointSel) (payload : WInt) : Statement (.pmuln d a payload) := of_payload _

theorem peq (a : PointSel) (b : PointSel) : Statement (.peq a b) := of_payload _

end Sys2Proof.Laws.Length
end

