-- ==== Sys2Proof/Laws/Secp256k1.lean ====
section
/-!
SUPPORT. `SP` is prime (which 42_scalar_mul_secp256k1.md rule R194 takes from general knowledge):
a chain of prime factorisations of `p - 1`, each checked by Lucas's test with the powers
evaluated by `modexp`.
-/

namespace Sys2Proof.Machine

-- Each `decide +kernel` waits for the declarations before it: one after another, not one thread
-- each.
set_option Elab.async false

/-- Lucas's test on evaluated powers: `w` has order `p - 1` modulo `p`, when `qs` multiply to
`p - 1` and are prime. -/
theorem prime_of_factors (p w : Nat) (qs : List Nat) (hqs : ∀ q ∈ qs, Nat.Prime q)
    (hprod : p - 1 = qs.prod) (h1 : modexp w (p - 1) p = 1 % p)
    (hn : ∀ q ∈ qs, modexp w ((p - 1) / q) p ≠ 1 % p) : Nat.Prime p := by
  have power (e : Nat) : (w : ZMod p) ^ e = 1 ↔ modexp w e p = 1 % p := by
    rw [modexp_eq, ← ZMod.natCast_eq_natCast_iff']
    push_cast
    rfl
  refine lucas_primality p w ((power _).2 h1) fun q hq hd hpow => ?_
  obtain ⟨r, hr, hqr⟩ := (Prime.dvd_prod_iff hq.prime).1 (hprod ▸ hd)
  obtain rfl := (Nat.prime_dvd_prime_iff_eq hq (hqs r hr)).1 hqr
  exact hn q hr ((power _).1 hpow)

theorem prime_173378833005251801 : Nat.Prime 173378833005251801 := by
  refine prime_of_factors _ 6 [2, 2, 2, 5, 5, 2621, 24809, 13331831] ?_ (by decide +kernel)
    (by decide +kernel) (by decide +kernel)
  simp only [List.forall_mem_cons, List.not_mem_nil, false_imp_iff, implies_true, and_true]
  norm_num

theorem prime_22149492674086928081353 : Nat.Prime 22149492674086928081353 := by
  refine prime_of_factors _ 5 [2, 2, 2, 3, 5323, 173378833005251801] ?_ (by decide +kernel)
    (by decide +kernel) (by decide +kernel)
  simp only [List.forall_mem_cons, List.not_mem_nil, false_imp_iff, implies_true, and_true]
  refine ⟨?_, ?_, ?_, ?_, ?_, prime_173378833005251801⟩ <;> norm_num

theorem prime_132896956044521568488119 : Nat.Prime 132896956044521568488119 := by
  refine prime_of_factors _ 6 [2, 3, 22149492674086928081353] ?_ (by decide +kernel)
    (by decide +kernel) (by decide +kernel)
  simp only [List.forall_mem_cons, List.not_mem_nil, false_imp_iff, implies_true, and_true]
  refine ⟨?_, ?_, prime_22149492674086928081353⟩ <;> norm_num

theorem prime_255515944373312847190720520512484175977 :
    Nat.Prime 255515944373312847190720520512484175977 := by
  refine prime_of_factors _ 3
    [2, 2, 2, 7, 7, 11, 1627, 2657, 4423, 41201, 96557, 7240687, 107590001] ?_ (by decide +kernel)
    (by decide +kernel) (by decide +kernel)
  simp only [List.forall_mem_cons, List.not_mem_nil, false_imp_iff, implies_true, and_true]
  norm_num

/-- The large prime factor of `SP - 1`. -/
theorem prime_factor_of_sp_sub_one :
    Nat.Prime 205115282021455665897114700593932402728804164701536103180137503955397371 := by
  refine prime_of_factors _ 10
    [2, 3, 5, 29, 29, 31, 7723, 132896956044521568488119, 255515944373312847190720520512484175977]
    ?_ (by decide +kernel) (by decide +kernel) (by decide +kernel)
  simp only [List.forall_mem_cons, List.not_mem_nil, false_imp_iff, implies_true, and_true]
  refine ⟨?_, ?_, ?_, ?_, ?_, ?_, ?_, prime_132896956044521568488119,
    prime_255515944373312847190720520512484175977⟩ <;> norm_num

theorem sp_prime : Nat.Prime Config.sp.toNat := by
  refine prime_of_factors _ 3
    [2, 3, 7, 13441, 205115282021455665897114700593932402728804164701536103180137503955397371]
    ?_ (by decide +kernel) (by decide +kernel) (by decide +kernel)
  simp only [List.forall_mem_cons, List.not_mem_nil, false_imp_iff, implies_true, and_true]
  refine ⟨?_, ?_, ?_, ?_, prime_factor_of_sp_sub_one⟩ <;> norm_num

end Sys2Proof.Machine
end

