-- ==== Sys2Proof/Tests/Slice0.lean ====
section
/-!
SUPPORT. The model's own tests: legality, decoding of words written out from 30_encoding.md rules
R81 and R84, single commands with the results that 95_test_vectors.md gives (the vector's number
stands in each comment), and a witness for the hypotheses of every statement that has some.
-/

namespace Sys2Proof.Tests

open Sys2Proof.Machine

-- Each `decide +kernel` waits for the declarations before it: one after another, not one thread
-- each.
set_option Elab.async false

/-! ### Legality (rules R25, R27, R29, R86) -/

theorem test_wellFormed_refuses_mld : (Instr.mld .sp 13#256).wellFormed = false := by decide

theorem test_wellFormed_refuses_cmk : (Instr.cmk .k1 0 1).wellFormed = false := by decide

theorem test_wellFormed_refuses_pmk : (Instr.pmk .g 0 1 .k1).wellFormed = false := by decide

theorem test_wellFormed_refuses_pinf : (Instr.pinf .g .k1).wellFormed = false := by decide

theorem test_wellFormed_refuses_pmov : (Instr.pmov .g (.p 0)).wellFormed = false := by decide

theorem test_wellFormed_refuses_padd : (Instr.padd .g (.p 0) .g).wellFormed = false := by decide

theorem test_wellFormed_refuses_pdbl : (Instr.pdbl .g .g).wellFormed = false := by decide

theorem test_wellFormed_refuses_pmul : (Instr.pmul .g .g 2#256).wellFormed = false := by decide

theorem test_wellFormed_refuses_pmuln : (Instr.pmuln .g .g 2#256).wellFormed = false := by decide

/-- Constants are legal sources. -/
theorem test_wellFormed_accepts_constants :
    (Instr.mst .sn).wellFormed ∧ (Instr.cst .k1).wellFormed ∧ (Instr.pst .g .curve).wellFormed ∧
      (Instr.padd (.p 7) .g .g).wellFormed := by decide

/-! ### Decoding: one word or more per command, the fields at the places of rule R81 -/

/-- A payload of small value: seven words of zero and the value. -/
def payload (v : Word) : List Word := [0#32, 0#32, 0#32, 0#32, 0#32, 0#32, 0#32, v]

theorem test_decode_nop : decode [0x01000000#32] = .ok .nop := by decide +kernel

theorem test_decode_rdst : decode [0x02000001#32] = .ok (.rdst .errinfo) := by decide +kernel

theorem test_decode_clrst : decode [0x03000000#32] = .ok .clrst := by decide +kernel

theorem test_decode_mld :
    decode (0x10100000#32 :: payload 13#32) = .ok (.mld (.m 1) 13#256) := by decide +kernel

theorem test_decode_mst : decode [0x11030000#32] = .ok (.mst .sn) := by decide +kernel

theorem test_decode_fld :
    decode (0x20120000#32 :: payload 5#32) = .ok (.fld 1 .sp 5#256) := by decide +kernel

theorem test_decode_fmov : decode [0x21F10000#32] = .ok (.fmov 15 1) := by decide +kernel

theorem test_decode_fst : decode [0x22070001#32] = .ok (.fst 7 .prime) := by decide +kernel

theorem test_decode_fadd : decode [0x23312000#32] = .ok (.fadd 3 1 2) := by decide +kernel

theorem test_decode_fsub : decode [0x24A29000#32] = .ok (.fsub 10 2 9) := by decide +kernel

theorem test_decode_fmul : decode [0x25873000#32] = .ok (.fmul 8 7 3) := by decide +kernel

theorem test_decode_fmuli :
    decode (0x26B20000#32 :: payload 3#32) = .ok (.fmuli 11 2 3#256) := by decide +kernel

theorem test_decode_fdiv : decode [0x27867000#32] = .ok (.fdiv 8 6 7) := by decide +kernel

theorem test_decode_finv : decode [0x28DC0000#32] = .ok (.finv 13 12) := by decide +kernel

theorem test_decode_fpow :
    decode (0x29100001#32 :: payload 3#32) = .ok (.fpow 1 0 true 3#256) := by decide +kernel

theorem test_decode_fsqrt : decode [0x2A430003#32] = .ok (.fsqrt 4 3 .odd) := by decide +kernel

theorem test_decode_fisz : decode [0x2B070000#32] = .ok (.fisz 7) := by decide +kernel

theorem test_decode_feq : decode [0x2C012000#32] = .ok (.feq 1 2) := by decide +kernel

theorem test_decode_cmk : decode [0x30123000#32] = .ok (.cmk (.c 1) 2 3) := by decide +kernel

theorem test_decode_cst : decode [0x31020000#32] = .ok (.cst .k1) := by decide +kernel

theorem test_decode_pmk :
    decode [0x40145200#32] = .ok (.pmk (.p 1) 4 5 .k1) := by decide +kernel

theorem test_decode_pinf : decode [0x41600100#32] = .ok (.pinf (.p 6) (.c 1)) := by decide +kernel

theorem test_decode_pmov : decode [0x42280000#32] = .ok (.pmov (.p 2) .g) := by decide +kernel

theorem test_decode_pst : decode [0x43080001#32] = .ok (.pst .g .curve) := by decide +kernel

theorem test_decode_padd :
    decode [0x44218000#32] = .ok (.padd (.p 2) (.p 1) .g) := by decide +kernel

theorem test_decode_pdbl : decode [0x45380000#32] = .ok (.pdbl (.p 3) .g) := by decide +kernel

theorem test_decode_pmul :
    decode (0x46540000#32 :: payload 7#32) = .ok (.pmul (.p 5) (.p 4) 7#256) := by decide +kernel

theorem test_decode_pmuln :
    decode (0x47080000#32 :: payload 0x1389#32) = .ok (.pmuln (.p 0) .g 5001#256) := by
  decide +kernel

theorem test_decode_peq : decode [0x48056000#32] = .ok (.peq (.p 5) (.p 6)) := by decide +kernel

/-- The payload is most significant word first (rule R62): the words of `SN` in program PC. -/
theorem test_decode_payload_order :
    decode [0x47080000#32, 0xFFFFFFFF#32, 0xFFFFFFFF#32, 0xFFFFFFFF#32, 0xFFFFFFFE#32,
      0xBAAEDCE6#32, 0xAF48A03B#32, 0xBFD25E8C#32, 0xD0364141#32] =
      .ok (.pmuln (.p 0) .g Config.sn) := by decide +kernel

/-- V70, V70a: undefined opcodes. -/
theorem test_decode_undefined :
    ([0x00000000#32, 0xFF000000#32, 0x04000000#32, 0x2D000000#32, 0x49000000#32].map
      fun w => decode [w]) = List.replicate 5 (.error .undefinedOpcode) := by decide +kernel

/-- V70b, V70c: a must-be-zero field, an unlisted `fn`. -/
theorem test_decode_must_be_zero :
    decode [0x23312001#32] = .error .mustBeZero ∧ decode [0x01000100#32] = .error .mustBeZero ∧
      decode [0x2A430001#32] = .error .badFunction ∧
      decode [0x2A430004#32] = .error .badFunction ∧
      decode (0x29100002#32 :: payload 3#32) = .error .badFunction := by decide +kernel

/-- V70d to V70g: selectors out of range, a constant as destination, an `fn` out of range. -/
theorem test_decode_bad_selector :
    decode [0x40845200#32] = .error .badSelector ∧ decode [0x42090000#32] = .error .badSelector ∧
      decode [0x48090000#32] = .error .badSelector ∧
      decode (0x10200000#32 :: payload 13#32) = .error .badSelector ∧
      decode (0x20040000#32 :: payload 13#32) = .error .badSelector ∧
      decode [0x02000003#32] = .error .badFunction ∧
      decode [0x31030000#32] = .error .badSelector ∧
      decode [0x41100300#32] = .error .badSelector := by decide +kernel

/-! ### Single commands -/

/-- The state a command left, if it left one. -/
def after : Host.Outcome State Fault Refusal → Option State
  | .next s => some s
  | .fault _ => none
  | .refused _ => none

/-- The last response. -/
def answer (o : Host.Outcome State Fault Refusal) : Option Response :=
  (after o).bind fun s => s.responses.getLast?

/-- The element a command left in a register. -/
def elemAt (o : Host.Outcome State Fault Refusal) (i : Fin 16) : Option (Option Elem) :=
  (after o).map fun s => s.f[i]

/-- The point a command left in a register. -/
def pointAt (o : Host.Outcome State Fault Refusal) (i : Fin 8) : Option (Option CPoint) :=
  (after o).map fun s => s.p[i]

/-- The curve `y^2 = x^3 + 7` modulo 223. -/
def c223 : Curve := ⟨0#256, 7#256, 223#256⟩

/-- An affine point of that curve. -/
def p223 (x y : WInt) : CPoint := ⟨.affine x y, c223⟩

/-- `F0 = a`, `F1 = b`, `T = 1`, everything else as after reset. -/
def two (a b : Elem) : State := ((State.reset.writeF 0 a).writeF 1 b).writeT true

/-- `P0 = u`, `P1 = v`. -/
def points (u v : CPoint) : State := (State.reset.writeP 0 u).writeP 1 v

theorem test_nop : answer (exec .nop State.reset) = some ⟨0#8, false, []⟩ := by decide +kernel

/-- 43_system_transfer.md rule R211: `STATUS` after one FieldMismatch with `T = 1`. -/
theorem test_rdst_status :
    answer (exec (.rdst .status) ((two ⟨0#256, 13#256⟩ ⟨5#256, 13#256⟩).raise .fieldMismatch)) =
      some ⟨0#8, false, [0x00000201#32]⟩ := by decide +kernel

/-- V48. -/
theorem test_rdst_ident :
    answer (exec (.rdst .ident) State.reset) = some ⟨0#8, false, [0x4D410108#32]⟩ := by
  decide +kernel

/-- Program PD, lines 23 and 25: CLRST does not clear `EX`. -/
theorem test_clrst :
    (after (exec .clrst (State.reset.raise (.pointNotOnCurve 200#256 119#256)))).map
      (fun s => (s.status, s.ex)) = some (0#32, 200#256) := by decide +kernel

/-- V15, V15b. -/
theorem test_mld : (after (exec (.mld (.m 1) 2#256) State.reset)).map (fun s => s.m) =
    some #v[none, some 2#256] := by decide +kernel

/-- V15a. -/
theorem test_mld_bad : answer (exec (.mld (.m 0) 1#256) State.reset) =
    some ⟨6#8, false, []⟩ := by decide +kernel

/-- V16. -/
theorem test_mst : answer (exec (.mst .sp) State.reset) = some ⟨0#8, false,
    [0xFFFFFFFF#32, 0xFFFFFFFF#32, 0xFFFFFFFF#32, 0xFFFFFFFF#32, 0xFFFFFFFF#32, 0xFFFFFFFF#32,
      0xFFFFFFFE#32, 0xFFFFFC2F#32]⟩ := by decide +kernel

/-- V16b. -/
theorem test_mst_uninit : answer (exec (.mst (.m 0)) State.reset) = some ⟨5#8, false, []⟩ := by
  decide +kernel

/-- V17c. -/
theorem test_fld : elemAt (exec (.fld 0 .sp (BitVec.allOnes 256)) State.reset) 0 =
    some (some ⟨0x1000003D0#256, Config.sp⟩) := by decide +kernel

/-- V17d. -/
theorem test_fld_sn : elemAt (exec (.fld 0 .sn (BitVec.allOnes 256)) State.reset) 0 =
    some (some ⟨0x14551231950B75FC4402DA1732FC9BEBE#256, Config.sn⟩) := by decide +kernel

/-- V18. -/
theorem test_fmov : elemAt (exec (.fmov 5 0) (two ⟨8#256, 13#256⟩ ⟨1#256, 13#256⟩)) 5 =
    some (some ⟨8#256, 13#256⟩) := by decide +kernel

/-- V18. -/
theorem test_fst : answer (exec (.fst 0 .value) (two ⟨8#256, 13#256⟩ ⟨1#256, 17#256⟩)) =
    some ⟨0#8, false, payload 8#32⟩ := by decide +kernel

/-- V18. -/
theorem test_fst_prime : answer (exec (.fst 0 .prime) (two ⟨8#256, 13#256⟩ ⟨1#256, 17#256⟩)) =
    some ⟨0#8, false, payload 13#32⟩ := by decide +kernel

/-- V19a: no carry is lost. -/
theorem test_fadd :
    elemAt (exec (.fadd 2 0 1) (two ⟨Config.sp - 1#256, Config.sp⟩ ⟨2#256, Config.sp⟩)) 2 =
      some (some ⟨1#256, Config.sp⟩) := by decide +kernel

/-- V74: a FieldMismatch leaves the destination. -/
theorem test_fadd_mismatch :
    (after (exec (.fadd 1 0 1) (two ⟨5#256, 223#256⟩ ⟨5#256, 13#256⟩))).map
      (fun s => (s.f[1], s.t, s.sticky)) = some (some ⟨5#256, 13#256⟩, true, 1#7) := by
  decide +kernel

/-- V20. -/
theorem test_fsub : elemAt (exec (.fsub 2 0 1) (two ⟨7#256, 13#256⟩ ⟨8#256, 13#256⟩)) 2 =
    some (some ⟨12#256, 13#256⟩) := by decide +kernel

/-- V21b: the product is formed exactly. -/
theorem test_fmul :
    elemAt (exec (.fmul 1 0 1) (two ⟨(1#256 <<< 255), Config.sp⟩ ⟨2#256, Config.sp⟩)) 1 =
      some (some ⟨0x1000003D1#256, Config.sp⟩) := by decide +kernel

/-- V22b. -/
theorem test_fmuli :
    elemAt (exec (.fmuli 2 0 (BitVec.allOnes 256)) (two ⟨7#256, 13#256⟩ ⟨8#256, 13#256⟩)) 2 =
      some (some ⟨1#256, 13#256⟩) := by decide +kernel

/-- V23. -/
theorem test_fdiv : elemAt (exec (.fdiv 2 0 1) (two ⟨7#256, 13#256⟩ ⟨8#256, 13#256⟩)) 2 =
    some (some ⟨9#256, 13#256⟩) := by decide +kernel

/-- V23b: `0^0 = 1`. -/
theorem test_fdiv_zero : elemAt (exec (.fdiv 2 0 1) (two ⟨1#256, 2#256⟩ ⟨0#256, 2#256⟩)) 2 =
    some (some ⟨1#256, 2#256⟩) := by decide +kernel

/-- V24c. -/
theorem test_finv : elemAt (exec (.finv 2 0) (two ⟨2#256, Config.sp⟩ ⟨0#256, 2#256⟩)) 2 =
    some (some ⟨0x7FFFFFFFFFFFFFFFFFFFFFFFFFFFFFFFFFFFFFFFFFFFFFFFFFFFFFFF7FFFFE18#256,
      Config.sp⟩) := by decide +kernel

/-- V24d: a composite modulus. -/
theorem test_finv_composite : elemAt (exec (.finv 2 0) (two ⟨3#256, 15#256⟩ ⟨0#256, 2#256⟩)) 2 =
    some (some ⟨3#256, 15#256⟩) := by decide +kernel

/-- V26b. -/
theorem test_fpow :
    elemAt (exec (.fpow 2 0 true (BitVec.allOnes 256)) (two ⟨7#256, 13#256⟩ ⟨0#256, 13#256⟩)) 2 =
      some (some ⟨8#256, 13#256⟩) := by decide +kernel

/-- V27: the exponent is reduced first. -/
theorem test_fpow_zero :
    elemAt (exec (.fpow 2 1 false 12#256) (two ⟨7#256, 13#256⟩ ⟨0#256, 13#256⟩)) 2 =
      some (some ⟨1#256, 13#256⟩) := by decide +kernel

/-- V33: the odd root modulo `SP`. -/
theorem test_fsqrt :
    elemAt (exec (.fsqrt 2 0 .odd)
      (two ⟨0xA24E1F4CEF0C749CD07010E549157D8715E70EAD79519BC6539C1A7D6DF59893#256, Config.sp⟩
        ⟨0#256, 13#256⟩)) 2 =
      some (some ⟨0x0D6CC87C5BC29B83368E17869E964F2F53D52EA3AA3E5A9EFA1FA578123A0C6D#256,
        Config.sp⟩) := by decide +kernel

/-- V31: no root, and the candidate of the other parity all the same. -/
theorem test_fsqrt_no_root :
    (after (exec (.fsqrt 2 0 .odd) (two ⟨3#256, 223#256⟩ ⟨0#256, 13#256⟩))).map
      (fun s => (s.f[2], s.t)) = some (some ⟨79#256, 223#256⟩, false) := by decide +kernel

/-- V29. -/
theorem test_fisz : answer (exec (.fisz 0) (two ⟨0#256, 13#256⟩ ⟨7#256, 13#256⟩)) =
    some ⟨0#8, true, []⟩ := by decide +kernel

/-- V75: a failing FISZ leaves `T`. -/
theorem test_fisz_uninit :
    (after (exec (.fisz 2) (two ⟨0#256, 13#256⟩ ⟨7#256, 13#256⟩))).map
      (fun s => (s.t, s.responses)) = some (true, [⟨5#8, false, []⟩]) := by decide +kernel

/-- V29a: different moduli are unequal, and no error. -/
theorem test_feq : answer (exec (.feq 0 1) (two ⟨5#256, 223#256⟩ ⟨5#256, 13#256⟩)) =
    some ⟨0#8, false, []⟩ := by decide +kernel

/-- V50. -/
theorem test_cmk :
    (after (exec (.cmk (.c 0) 0 1) (two ⟨0#256, 223#256⟩ ⟨7#256, 223#256⟩))).map
      (fun s => s.c[0]) = some (some c223) := by decide +kernel

/-- V47. -/
theorem test_cst : answer (exec (.cst .k1) State.reset) = some ⟨0#8, false,
    payload 0#32 ++ payload 7#32 ++ [0xFFFFFFFF#32, 0xFFFFFFFF#32, 0xFFFFFFFF#32, 0xFFFFFFFF#32,
      0xFFFFFFFF#32, 0xFFFFFFFF#32, 0xFFFFFFFE#32, 0xFFFFFC2F#32]⟩ := by decide +kernel

/-- V51. -/
theorem test_pmk :
    pointAt (exec (.pmk (.p 0) 0 1 (.c 0))
      ((two ⟨192#256, 223#256⟩ ⟨105#256, 223#256⟩).writeC 0 c223)) 0 =
      some (some (p223 192#256 105#256)) := by decide +kernel

/-- V51a. -/
theorem test_pmk_off_curve :
    (after (exec (.pmk (.p 0) 0 1 (.c 0))
      ((two ⟨200#256, 223#256⟩ ⟨119#256, 223#256⟩).writeC 0 c223))).map
      (fun s => (s.p[0], s.ex, s.ey, s.sticky)) =
      some (none, 200#256, 119#256, 2#7) := by decide +kernel

/-- 41_curve_point.md rule R156's example. -/
theorem test_pinf : pointAt (exec (.pinf (.p 1) .k1) State.reset) 1 =
    some (some ⟨.infinity, Config.k1⟩) := by decide +kernel

/-- 41_curve_point.md rule R157's example. -/
theorem test_pmov : pointAt (exec (.pmov (.p 2) .g) State.reset) 2 =
    some (some ⟨.affine Config.gx Config.gy, Config.k1⟩) := by decide +kernel

/-- 41_curve_point.md rule R158's example. -/
theorem test_pst :
    answer (exec (.pst (.p 0) .coords) (points (p223 170#256 142#256) ⟨.infinity, c223⟩)) =
      some ⟨0#8, false, 0#32 :: (payload 0xAA#32 ++ payload 0x8E#32)⟩ := by decide +kernel

/-- V53b. -/
theorem test_pst_infinity :
    answer (exec (.pst (.p 1) .coords) (points (p223 170#256 142#256) ⟨.infinity, c223⟩)) =
      some ⟨0#8, false, 1#32 :: List.replicate 16 0#32⟩ := by decide +kernel

/-- V4. -/
theorem test_padd :
    pointAt (exec (.padd (.p 2) (.p 0) (.p 1))
      (points (p223 192#256 105#256) (p223 17#256 56#256))) 2 =
      some (some (p223 170#256 142#256)) := by decide +kernel

/-- V62: the identity of one curve and a point of another. -/
theorem test_padd_mismatch :
    answer (exec (.padd (.p 2) (.p 0) .g) (points ⟨.infinity, c223⟩ ⟨.infinity, c223⟩)) =
      some ⟨3#8, false, []⟩ := by decide +kernel

/-- V5. -/
theorem test_pdbl :
    pointAt (exec (.pdbl (.p 0) (.p 0)) (points (p223 192#256 105#256) ⟨.infinity, c223⟩)) 0 =
      some (some (p223 49#256 71#256)) := by decide +kernel

/-- V61: the one addition modulo 2 that leaves the curve. -/
theorem test_pdbl_off_curve :
    (after (exec (.pdbl (.p 1) (.p 0))
      (points ⟨.affine 0#256 1#256, ⟨1#256, 1#256, 2#256⟩⟩ ⟨.infinity, c223⟩))).map
      (fun s => (s.p[1], s.ex, s.ey, s.sticky)) =
      some (some ⟨.infinity, c223⟩, 1#256, 0#256, 2#7) := by decide +kernel

/-- V8. -/
theorem test_pmul :
    pointAt (exec (.pmul (.p 5) (.p 0) 7#256)
      (points (p223 15#256 86#256) (p223 15#256 86#256))) 5 =
      some (some ⟨.infinity, c223⟩) := by decide +kernel

/-- V63c: all 256 iterations. -/
theorem test_pmul_long :
    pointAt (exec (.pmul (.p 5) (.p 0) (BitVec.allOnes 256))
      (points (p223 47#256 71#256) (p223 15#256 86#256))) 5 =
      some (some (p223 139#256 86#256)) := by decide +kernel

/-- V43: the source's `5001 * G`. -/
theorem test_pmuln : pointAt (exec (.pmuln (.p 0) .g 5001#256) State.reset) 0 =
    some (some ⟨.affine 0x57A4F368868A8A6D572991E484E664810FF14C05C0FA023275251151FE0E53D1#256
      0x0D6CC87C5BC29B83368E17869E964F2F53D52EA3AA3E5A9EFA1FA578123A0C6D#256, Config.k1⟩) := by
  decide +kernel

/-- V65. -/
theorem test_pmuln_mismatch :
    answer (exec (.pmuln (.p 1) (.p 0) 3#256)
      (points (p223 47#256 71#256) ⟨.infinity, c223⟩)) = some ⟨3#8, false, []⟩ := by
  decide +kernel

/-- V53a: identities of different curves. -/
theorem test_peq :
    answer (exec (.peq (.p 0) (.p 1)) (points ⟨.infinity, c223⟩ ⟨.infinity, Config.k1⟩)) =
      some ⟨0#8, false, []⟩ := by decide +kernel

/-- V53. -/
theorem test_peq_infinity :
    answer (exec (.peq (.p 0) (.p 1)) (points ⟨.infinity, c223⟩ ⟨.infinity, c223⟩)) =
      some ⟨0#8, true, []⟩ := by decide +kernel

/-! ### Steps from the command port -/

/-- V72: IllegalCommand comes before Uninit. -/
theorem test_step_illegal_first :
    answer (step { State.reset with port := present [0x2B020001#32] }) =
      some ⟨4#8, false, []⟩ := by decide +kernel

/-- V70e: an illegal command with a payload takes its nine words. -/
theorem test_step_illegal_payload :
    (after (step { State.reset with
      port := present (0x10200000#32 :: payload 13#32) ++ present [0x01000000#32] })).map
      (fun s => s.port) = some (present [0x01000000#32]) := by decide +kernel

/-- The host's presenting of `FLD F1, SP, 5`, bits numbered as the opcode table numbers them. -/
theorem test_step_withFetchWord :
    elemAt (step (State.reset.withFetchWord 288 (0x20120000 + 5 * 2 ^ 256))) 1 =
      some (some ⟨5#256, Config.sp⟩) := by decide +kernel

/-- V40, V41. -/
theorem test_constants : Config.sp.toNat = 2 ^ 256 - 2 ^ 32 - 977 ∧
    onCurve Config.gx Config.gy Config.k1 = true ∧ Config.sp.toNat % 4 = 3 ∧
    Config.sn.toNat % 4 = 1 := by decide +kernel

/-! ### Witnesses: the hypotheses of each statement hold together somewhere -/

/-- An illegal FPOW (V70c) and its payload. -/
def badFpow : List Word := 0x29100002#32 :: payload 3#32

/-- Elements modulo 223 and 13, moduli, a curve, points: everything the witnesses read. -/
def full : State :=
  { State.reset with
    f := (((((State.reset.f.set 0 (some ⟨0#256, 223#256⟩)).set 1 (some ⟨7#256, 223#256⟩)).set 2
      (some ⟨192#256, 223#256⟩)).set 3 (some ⟨105#256, 223#256⟩)).set 4
      (some ⟨5#256, 13#256⟩)).set 5 (some ⟨0#256, 2#256⟩)
    m := State.reset.m.set 0 (some 13#256)
    c := State.reset.c.set 0 (some c223)
    p := ((((State.reset.p.set 0 (some (p223 192#256 105#256))).set 1
      (some (p223 17#256 56#256))).set 2 (some ⟨.infinity, c223⟩)).set 3
      (some (p223 192#256 118#256))).set 4 (some (p223 6#256 0#256)) }

theorem test_witness_DecodeOfEncodeIsIdentity :
    (Instr.pmuln (.p 7) .g (BitVec.allOnes 256)).wellFormed = true ∧
      Instr.nop.wellFormed = true ∧ (Instr.mld (.m 1) 0#256).wellFormed = true := by decide +kernel

theorem test_witness_DecodedWordsAreTheEncoding :
    decode [0x2A430003#32] = .ok (.fsqrt 4 3 .odd) := test_decode_fsqrt

theorem test_witness_LengthIsDecidedByOpcodeAlone :
    (payload 3#32).length =
        (if (0x29100002#32).extractLsb' 24 8 ∈ payloadOpcodes then 8 else 0) ∧
      ([] : List Word).length =
        (if (0xFFFFFFFF#32).extractLsb' 24 8 ∈ payloadOpcodes then 8 else 0) ∧
      ({ State.reset with port := present badFpow ++ [.reset] } : State).port =
        present (0x29100002#32 :: payload 3#32) ++ [.reset] := by decide +kernel

/-- Both ends of every range of opcodes. -/
theorem test_witness_UndefinedOpcodeIsIllegal :
    ([0x00000000#32, 0x04FFFFFF#32, 0x0F000000#32, 0x12000000#32, 0x1F000000#32, 0x2D000000#32,
      0x2F000000#32, 0x32000000#32, 0x3F000000#32, 0x49000000#32, 0xFFFFFFFF#32].map
      fun h : Word => (h.extractLsb' 24 8).toNat) =
        [0x00, 0x04, 0x0F, 0x12, 0x1F, 0x2D, 0x2F, 0x32, 0x3F, 0x49, 0xFF] ∧
      ({ State.reset with port := present [0xFFFFFFFF#32] } : State).port =
        .word 0xFFFFFFFF#32 :: [] := by decide +kernel

theorem test_witness_IllegalCommandTakesItsWords :
    (payload 3#32).length = (payload 0xFFFFFFFF#32).length ∧
    (payload 3#32).length =
        (if (0x29100002#32).extractLsb' 24 8 ∈ payloadOpcodes then 8 else 0) ∧
      decode badFpow = .error .badFunction ∧
      ({ State.reset with port := present badFpow } : State).port = present badFpow ++ [] := by
  decide +kernel

theorem test_witness_ConstantDestinationIsIllegal :
    (Instr.mld .sn 2#256).wellFormed = false ∧ (Instr.cmk .k1 0 1).wellFormed = false ∧
      (Instr.pmov .g .g).wellFormed = false := by decide +kernel

theorem test_witness_StepRunsTheDecodedCommand :
    decode [0x45380000#32] = .ok (.pdbl (.p 3) .g) ∧
      ({ State.reset with port := present [0x45380000#32, 0x01000000#32] } : State).port =
        present [0x45380000#32] ++ present [0x01000000#32] := by decide +kernel

/-- No word, the header alone, and all words but the last. -/
theorem test_witness_EngineWaitsForAWholeCommand :
    State.reset.port = [] ∧ (0x10000000#32).extractLsb' 24 8 ∈ payloadOpcodes ∧
      ([] : List Word).length < 8 ∧ (List.replicate 7 0#32).length < 8 ∧
      ({ State.reset with port := present (0x10000000#32 :: List.replicate 7 0#32) } : State).port =
        present (0x10000000#32 :: List.replicate 7 0#32) := by decide +kernel

theorem test_witness_ResetEventLeavesResetState :
    ({ full with port := [.reset, .word 0x01000000#32] } : State).port =
      .reset :: [.word 0x01000000#32] := rfl

theorem test_witness_ResetDiscardsAPartialCommand :
    (0x47080000#32).extractLsb' 24 8 ∈ payloadOpcodes ∧ (List.replicate 7 1#32).length < 8 ∧
      ({ full with port := present (0x47080000#32 :: List.replicate 7 1#32) ++ [.reset] } :
        State).port = present (0x47080000#32 :: List.replicate 7 1#32) ++ .reset :: [] := by
  decide +kernel

/-- The invariant in a state that holds an element, a modulus, a curve and a point. -/
theorem test_witness_StepIsSafe :
    ((((State.reset.writeF 2 ⟨192#256, 223#256⟩).writeM 0 13#256).writeC 0 c223).writeP 0
      (p223 192#256 105#256)).Inv := by
  have reset : State.reset.Inv := by
    refine ⟨fun i e he => ?_, fun i v hv => ?_, fun i cv hcv => ?_, fun i u hu => ?_⟩ <;>
      simp [State.reset] at *
  exact inv_writeP (inv_writeC (inv_writeM (inv_writeF reset _ (by decide +kernel)) _ (by decide +kernel)) _
    (by decide +kernel)) _ (by decide +kernel)

theorem test_witness_StepKeepsResponsesWellFormed :
    ({ State.reset with responses := [⟨2#8, false, []⟩, ⟨0#8, false, payload 5#32⟩] } :
      State).ResponsesWf ∧ step State.reset = .next State.reset := by
  refine ⟨fun r hr => ?_, rfl⟩
  simp only [List.mem_cons, List.not_mem_nil, or_false] at hr
  rcases hr with rfl | rfl <;> decide +kernel

theorem test_witness_WordOrderIsMostSignificantFirst :
    (words (1#256 <<< 224))[0]? = some 1#32 ∧ (words 1#256)[7]? = some 1#32 ∧
      (payload 13#32).length = 8 := by decide +kernel

theorem test_witness_NopOnlyResponds :
    (0x01000100#32).extractLsb' 24 8 = 0x01#8 ∧ 0x01000100#32 ≠ 0x01000000#32 ∧
      ({ full with port := present [0x01000100#32] } : State).port =
        .word 0x01000100#32 :: [] := by decide +kernel

theorem test_witness_RdstReturnsStatus :
    (0x02000003#32).extractLsb' 24 8 = 0x02#8 ∧
      0x02000003#32 ∉ [0x02000000#32, 0x02000001#32, 0x02000002#32] ∧
      ({ full with port := present [0x02000003#32] } : State).port =
        .word 0x02000003#32 :: [] := by decide +kernel

theorem test_witness_ClrstClearsStickyOnly :
    (0x03000001#32).extractLsb' 24 8 = 0x03#8 ∧ 0x03000001#32 ≠ 0x03000000#32 ∧
      ({ full with port := present [0x03000001#32] } : State).port =
        .word 0x03000001#32 :: [] := by decide +kernel

/-- The greatest payload refused and the least accepted. -/
theorem test_witness_MldLoadsModulus : (1#256).toNat < 2 ∧ 2 ≤ (2#256).toNat := by decide +kernel

theorem test_witness_MstReturnsModulus :
    full.HoldsM (.m 0) 13#256 ∧ full.HoldsM .sn Config.sn := ⟨rfl, rfl⟩

theorem test_witness_FldReducesPayload :
    full.HoldsM (.m 0) 13#256 ∧ full.HoldsM .sp Config.sp ∧ 2 ≤ (13#256).toNat ∧
      2 ≤ Config.sp.toNat := ⟨rfl, rfl, by decide +kernel, by decide +kernel⟩

theorem test_witness_ElementTransfers : full.f[(2 : ElemSel)] = some ⟨192#256, 223#256⟩ := rfl

/-- For FaddAddsModuloThePrime, FsubSubtractsModuloThePrime, FmulMultipliesModuloThePrime,
FpowRaisesToTheReducedExponent, FdivAndFinvByFermat: two readable elements of one modulus. -/
theorem test_witness_field_arithmetic :
    full.f[(2 : ElemSel)] = some ⟨192#256, 223#256⟩ ∧
      full.f[(3 : ElemSel)] = some ⟨105#256, 223#256⟩ ∧
      (⟨192#256, 223#256⟩ : Elem).Wf ∧
      (⟨192#256, 223#256⟩ : Elem).prime = (⟨105#256, 223#256⟩ : Elem).prime ∧
      (-3 : Int) = (if true = true then -((3#256).toNat : Int) else ((3#256).toNat : Int)) :=
  ⟨rfl, rfl, by decide +kernel, rfl, by decide +kernel⟩

/-- The same statements at the least modulus, and at one that is not prime. -/
theorem test_witness_wf_boundary :
    (⟨1#256, 2#256⟩ : Elem).Wf ∧ (⟨14#256, 15#256⟩ : Elem).Wf := by decide +kernel

theorem test_witness_FinvIsAnInverseForPrimes :
    full.f[(2 : ElemSel)] = some ⟨192#256, 223#256⟩ ∧ (⟨192#256, 223#256⟩ : Elem).Wf ∧
      Nat.Prime (223#256).toNat ∧ (192#256 : WInt) ≠ 0#256 := by
  refine ⟨rfl, by decide +kernel, ?_, by decide +kernel⟩
  norm_num

/-- A zero divisor modulo 223 and modulo 2, and exponents 0 and `p - 1`. -/
theorem test_witness_ZeroOperandsAreNotErrors :
    full.f[(0 : ElemSel)] = some ⟨0#256, 223#256⟩ ∧ (⟨0#256, 223#256⟩ : Elem).Wf ∧
      full.f[(5 : ElemSel)] = some ⟨0#256, 2#256⟩ ∧ (⟨0#256, 2#256⟩ : Elem).Wf ∧
      (223 - 1) ∣ (0#256).toNat ∧ (223 - 1) ∣ (222#256).toNat ∧ (2 - 1) ∣ (5#256).toNat :=
  ⟨rfl, by decide +kernel, rfl, by decide +kernel, by decide +kernel, by decide +kernel, by decide +kernel⟩

/-- A root (V30e) and none (V31). -/
theorem test_witness_FsqrtWritesTheRootCandidate :
    full.f[(2 : ElemSel)] = some ⟨192#256, 223#256⟩ ∧ (⟨192#256, 223#256⟩ : Elem).Wf ∧
      223 % 4 = 3 ∧ (105 = 98 ^ ((223 + 1) / 4) % 223 ∧ 105 * 105 % 223 = 98) ∧
      (144 = 3 ^ ((223 + 1) / 4) % 223 ∧ 144 * 144 % 223 ≠ 3) :=
  ⟨rfl, by decide +kernel, rfl, by decide +kernel, by decide +kernel⟩

theorem test_witness_FsqrtRefusesOtherModuli :
    full.f[(4 : ElemSel)] = some ⟨5#256, 13#256⟩ ∧ (13#256).toNat % 4 ≠ 3 := ⟨rfl, by decide +kernel⟩

theorem test_witness_ElementTestsWriteT :
    full.f[(0 : ElemSel)] = some ⟨0#256, 223#256⟩ ∧
      full.f[(4 : ElemSel)] = some ⟨5#256, 13#256⟩ := ⟨rfl, rfl⟩

theorem test_witness_CurveCommands :
    full.f[(0 : ElemSel)] = some ⟨0#256, 223#256⟩ ∧
      full.f[(1 : ElemSel)] = some ⟨7#256, 223#256⟩ ∧ full.HoldsC (.c 0) c223 ∧
      full.HoldsC .k1 Config.k1 := ⟨rfl, rfl, rfl, rfl⟩

/-- Coordinates on the curve (V51) and off it (the same two, exchanged). -/
theorem test_witness_PmkChecksTheEquation :
    full.f[(2 : ElemSel)] = some ⟨192#256, 223#256⟩ ∧
      full.f[(3 : ElemSel)] = some ⟨105#256, 223#256⟩ ∧ full.HoldsC (.c 0) c223 ∧
      c223.p = 223#256 ∧ c223.Satisfied 192 105 ∧ ¬c223.Satisfied 105 192 :=
  ⟨rfl, rfl, rfl, rfl, by decide +kernel, by decide +kernel⟩

theorem test_witness_PointConstruction :
    full.HoldsC (.c 0) c223 ∧ full.HoldsP (.p 0) (p223 192#256 105#256) ∧
      full.HoldsP .g Config.g := ⟨rfl, rfl, rfl⟩

theorem test_witness_PstReturnsPoint :
    full.HoldsP (.p 0) (p223 192#256 105#256) ∧
      (p223 192#256 105#256).pt = .affine 192#256 105#256 ∧
      full.HoldsP (.p 2) ⟨.infinity, c223⟩ := ⟨rfl, rfl, rfl⟩

theorem test_witness_PeqComparesPoints :
    full.HoldsP (.p 0) (p223 192#256 105#256) ∧ full.HoldsP .g Config.g := ⟨rfl, rfl⟩

/-- The identity, a vertical chord, and a point with `y = 0`. -/
theorem test_witness_PaddWithoutSlope :
    full.HoldsP (.p 0) (p223 192#256 105#256) ∧ full.HoldsP (.p 2) ⟨.infinity, c223⟩ ∧
      full.HoldsP (.p 3) (p223 192#256 118#256) ∧ full.HoldsP (.p 4) (p223 6#256 0#256) ∧
      (105#256 : WInt) ≠ 118#256 := ⟨rfl, rfl, rfl, rfl, by decide +kernel⟩

/-- V4: a third point on the curve. V61a: a third point that is not. -/
theorem test_witness_PaddByTheChord :
    full.HoldsP (.p 0) (p223 192#256 105#256) ∧ full.HoldsP (.p 1) (p223 17#256 56#256) ∧
      c223.Wf ∧ (192#256 : WInt) ≠ 17#256 ∧
      (143 : Int) = ((56 - 105 : Int) % 223 * ((17 - 192 : Int) % 223) ^ 221) % 223 ∧
      (170 : Int) = (143 * 143 - 192 - 17) % 223 ∧ (142 : Int) = (143 * (192 - 170) - 105) % 223 ∧
      c223.Satisfied 170 142 ∧ ¬(⟨0#256, 7#256, 15#256⟩ : Curve).Satisfied 11 0 ∧
      (⟨0#256, 7#256, 15#256⟩ : Curve).Wf :=
  ⟨rfl, rfl, by decide +kernel, by decide +kernel, by norm_num, by norm_num, by norm_num, by decide +kernel, by decide +kernel,
    by decide +kernel⟩

/-- V5, V61, V56. -/
theorem test_witness_DoublingByTheTangent :
    full.HoldsP (.p 0) (p223 192#256 105#256) ∧ c223.Wf ∧ (105#256 : WInt) ≠ 0#256 ∧
      (87 : Int) = ((3 * 192 * 192 + 0 : Int) % 223 * ((2 * 105 : Int) % 223) ^ 221) % 223 ∧
      c223.Satisfied 49 71 ∧ (⟨1#256, 1#256, 2#256⟩ : Curve).Wf ∧
      ¬(⟨1#256, 1#256, 2#256⟩ : Curve).Satisfied 1 0 ∧
      full.HoldsP (.p 4) (p223 6#256 0#256) ∧ full.HoldsP (.p 2) ⟨.infinity, c223⟩ :=
  ⟨rfl, by decide +kernel, by decide +kernel, by norm_num, by decide +kernel, by decide +kernel, by decide +kernel, rfl, rfl⟩

/-- For AdditionStaysOnTheCurveForPrimes and PaddCommutes. -/
theorem test_witness_addition_for_primes :
    full.HoldsP (.p 0) (p223 192#256 105#256) ∧ full.HoldsP (.p 1) (p223 17#256 56#256) ∧
      (p223 192#256 105#256).Wf ∧ (p223 17#256 56#256).Wf ∧
      (p223 192#256 105#256).cv = (p223 17#256 56#256).cv ∧ Nat.Prime c223.p.toNat ∧
      3 ≤ c223.p.toNat := by
  refine ⟨rfl, rfl, by decide +kernel, by decide +kernel, rfl, ?_, by decide +kernel⟩
  show Nat.Prime 223
  norm_num

/-- A loop that returns, and V61's point, whose last doubling raises. -/
theorem test_witness_ScalarMulIsTheLoop :
    ScalarRun 0 ⟨.infinity, c223⟩ (p223 47#256 71#256) (.ok ⟨.infinity, c223⟩) ∧
      ScalarRun 1 ⟨.infinity, ⟨1#256, 1#256, 2#256⟩⟩
        ⟨.affine 0#256 1#256, ⟨1#256, 1#256, 2#256⟩⟩
        (.error (.pointNotOnCurve 1#256 0#256)) :=
  ⟨.done _ _, .doubleRaises 1 _ _ ⟨.affine 0#256 1#256, ⟨1#256, 1#256, 2#256⟩⟩ _ (by decide +kernel)
    (by decide +kernel) (by decide +kernel)⟩

theorem test_witness_ScalarCommandsRunTheLoop :
    full.HoldsP (.p 0) (p223 192#256 105#256) ∧ full.HoldsP .g Config.g ∧
      Config.g.cv = Config.k1 ∧
      ScalarRun (0#256).toNat ⟨.infinity, c223⟩ (p223 192#256 105#256) (.ok ⟨.infinity, c223⟩) ∧
      ScalarRun ((0#256).toNat % Config.sn.toNat) ⟨.infinity, Config.k1⟩ Config.g
        (.ok ⟨.infinity, Config.k1⟩) :=
  ⟨rfl, rfl, rfl, .done _ _, .done _ _⟩

/-- For PaddIsTheGroupLaw and PmulIsTheKFoldSum: two points of the group of `c223`, and the point
registers that stand for them. -/
theorem test_witness_group_law :
    ∃ _ : Fact (Nat.Prime c223.p.toNat), ∃ P Q : (weierstrass c223).Point,
      3 ≤ c223.p.toNat ∧ full.HoldsP (.p 0) (p223 192#256 105#256) ∧
      full.HoldsP (.p 1) (p223 17#256 56#256) ∧ Represents c223 P (p223 192#256 105#256) ∧
      Represents c223 Q (p223 17#256 56#256) := by
  have hp : Fact (Nat.Prime c223.p.toNat) := ⟨by show Nat.Prime 223; norm_num⟩
  have hd : (weierstrass c223).Δ ≠ 0 := by
    rw [weierstrass_disc, Ne, ZMod.intCast_zmod_eq_zero_iff_dvd]
    decide +kernel
  obtain ⟨P, hP⟩ := represents_of_liesOn hd (u := p223 192#256 105#256) rfl (by decide +kernel)
  obtain ⟨Q, hQ⟩ := represents_of_liesOn hd (u := p223 17#256 56#256) rfl (by decide +kernel)
  exact ⟨hp, P, Q, by decide +kernel, rfl, rfl, hP, hQ⟩

/-- `SP` is prime, and `G` satisfies the invariant. -/
theorem test_witness_PmulnNeverLeavesTheCurve :
    full.HoldsP .g Config.g ∧ Config.g.cv = Config.k1 ∧ Config.g.Wf ∧
      Nat.Prime Config.k1.p.toNat := ⟨rfl, rfl, by decide +kernel, sp_prime⟩

/-- An unwritten register beside a written one, and two written ones. -/
theorem test_witness_UninitExactlyWhenASourceIsInvalid :
    (Instr.fadd 0 2 9).wellFormed = true ∧
      (∃ r ∈ (Instr.fadd 0 2 9).reads, full.validBit r = false) ∧
      (∀ r ∈ (Instr.fadd 0 2 3).reads, full.validBit r = true) ∧
      ∃ t r, exec (.fadd 0 2 3) full = .next t ∧ t.responses = full.responses ++ [r] := by
  refine ⟨by decide +kernel, by decide +kernel, by decide +kernel, ?_⟩
  exact ⟨_, ⟨0#8, false, []⟩, congrArg (complete full)
    (elemBinary_of_some (s := full) (a := 2) (b := 3) rfl rfl rfl), rfl⟩

theorem test_witness_FieldMismatchRaised :
    full.f[(0 : ElemSel)] = some ⟨0#256, 223#256⟩ ∧
      full.f[(4 : ElemSel)] = some ⟨5#256, 13#256⟩ ∧ (223#256 : WInt) ≠ 13#256 ∧
      full.HoldsC (.c 0) c223 ∧ (13#256 : WInt) ≠ c223.p :=
  ⟨rfl, rfl, by decide +kernel, rfl, by decide +kernel⟩

theorem test_witness_CurveMismatchRaised :
    full.HoldsP (.p 2) ⟨.infinity, c223⟩ ∧ full.HoldsP .g Config.g ∧
      c223 ≠ Config.g.cv ∧ c223 ≠ Config.k1 := ⟨rfl, rfl, by decide +kernel, by decide +kernel⟩

/-- A command that ends with an error, its response and its next state. -/
theorem test_witness_ErrorsChangeNothingElse :
    exec (.fisz 9) full = .next (full.raise .uninit) ∧
      (full.raise .uninit).responses = full.responses ++ [⟨5#8, false, []⟩] ∧
      (5#8 : BitVec 8) ≠ 0#8 := ⟨rfl, rfl, by decide +kernel⟩

/-- For OnlyTheDestinationChanges and ReadsHaveNoSideEffects: a command that succeeds and one that
writes `T`, each with its response. -/
theorem test_witness_frames :
    exec (.mst .sp) full = .next (full.respond false (words Config.sp)) ∧
      (full.respond false (words Config.sp)).responses =
        full.responses ++ [⟨0#8, false, words Config.sp⟩] ∧
      (Instr.mst .sp).effect = .none ∧
      exec (.fisz 0) full = .next (full.respondTest true) ∧
      (full.respondTest true).responses = full.responses ++ [⟨0#8, true, []⟩] ∧
      (Instr.fisz 0).effect = .test := ⟨rfl, rfl, rfl, rfl, rfl, rfl⟩

theorem test_witness_StickyDoesNotAffectExecution :
    (Instr.rdst .ident) ≠ .rdst .status ∧
      exec .clrst full = .next (full.clearSticky.respond false []) := ⟨by decide +kernel, rfl⟩

end Sys2Proof.Tests
end

section
/-!
PROOFS. The step of 00_scope.md rule R11: one equation for each thing the engine can find at the
command port, what a fetch answers, and the statements on the step that follow from them.
-/

namespace Sys2Proof.Machine

/-! ### What the engine finds at the command port -/

/-- Words that decode are a header with the payload it calls for (30_encoding.md rule R80). -/
theorem decode_eq_ok_length {ws : List Word} {i : Instr} (h : decode ws = .ok i) :
    ∃ hd payload, ws = hd :: payload ∧ payload.length = payloadLength hd := by
  cases ws with
  | nil => simp [decode] at h
  | cons hd payload =>
    refine ⟨hd, payload, rfl, ?_⟩
    by_contra hlen
    simp [decode, hlen] at h

/-- Words that decode are taken whole, and nothing after them. -/
theorem fetch_of_decode_eq_ok {ws : List Word} {i : Instr} (h : decode ws = .ok i)
    (rest : List PortEvent) : fetch (present ws ++ rest) = .command ws rest := by
  obtain ⟨hd, payload, rfl, hlen⟩ := decode_eq_ok_length h
  exact fetch_present hd payload rest hlen

/-- A header with too few payload words after it is no whole command. -/
theorem fetch_waiting (h : Word) (payload : List Word) (hlen : payload.length < payloadLength h) :
    fetch (present (h :: payload)) = .waiting := by
  simp [fetch, takeWords_waiting _ _ hlen, Fetched.cons]

/-! ### The step, by what it finds there -/

variable {s : State} {ws : List Word} {rest : List PortEvent}

theorem step_of_waiting (h : fetch s.port = .waiting) : step s = .next s := by
  simp [step, h]

theorem step_of_reset (h : fetch s.port = .reset rest) : step s = .next (s.hostReset rest) := by
  simp [step, h]

theorem step_of_legal {i : Instr} (h : fetch s.port = .command ws rest) (hd : decode ws = .ok i) :
    step s = exec i { s with port := rest } := by
  simp [step, h, hd]

theorem step_of_illegal {e : Illegal} (h : fetch s.port = .command ws rest)
    (hd : decode ws = .error e) :
    step s = .next (State.raise { s with port := rest } .illegalCommand) := by
  simp [step, h, hd]

/-! ### What a command returns -/

/-- A command ends in a next state, which leaves the port and has one response more
(30_encoding.md rule R90, 60_exceptions.md rules R236, R241). -/
theorem exec_responds_once (i : Instr) (s : State) :
    ∃ (t : State) (r : Response),
      exec i s = .next t ∧ t.port = s.port ∧ t.responses = s.responses ++ [r] := by
  obtain ⟨t, ht, hframe⟩ | ⟨e, he⟩ := exec_inversion i s
  · obtain ⟨flag, data, hr⟩ := hframe.responds
    exact ⟨t, _, ht, hframe.port, hr⟩
  · exact ⟨s.raise e, _, he, State.raise_port s e, State.raise_responses s e⟩

/-! ### The statements -/

/-- Settles O16, by what the engine finds at the port: waiting and reset add no response, a legal
command adds its one by `exec_responds_once`, an illegal one adds its error's. -/
theorem stepNeverStops : Obligations.StepNeverStops := by
  intro s
  cases hf : fetch s.port with
  | waiting => exact ⟨s, step_of_waiting hf, .inl rfl⟩
  | reset rest => exact ⟨_, step_of_reset hf, .inl rfl⟩
  | command ws rest =>
    cases hd : decode ws with
    | ok i =>
      obtain ⟨t, r, ht, -, hr⟩ := exec_responds_once i { s with port := rest }
      exact ⟨t, (step_of_legal hf hd).trans ht, .inr ⟨r, hr⟩⟩
    | error e => exact ⟨_, step_of_illegal hf hd, .inr ⟨_, State.raise_responses _ _⟩⟩

/-- Settles O8: words that decode are the whole of what the step takes. -/
theorem stepRunsTheDecodedCommand : Obligations.StepRunsTheDecodedCommand := by
  intro s ws i rest hd hport
  exact step_of_legal (by rw [hport, fetch_of_decode_eq_ok hd]) hd

/-- Settles O9: an empty port and a command not yet whole are both answered by waiting. -/
theorem engineWaitsForAWholeCommand : Obligations.EngineWaitsForAWholeCommand := by
  refine ⟨fun s hport => step_of_waiting (by rw [hport, fetch]), ?_⟩
  intro s h payload hop hlen hport
  have hneed : payload.length < payloadLength h := by rwa [payloadLength_eq, if_pos hop]
  exact step_of_waiting (by rw [hport, fetch_waiting h payload hneed])

end Sys2Proof.Machine
end

section
/-!
PROOFS. The state of 10_state.md: the values after reset, the invariant of the register files and
its preservation by every step (rules R22 to R30), the frame of every command (rules R20, R33 to
R35), and constants as destinations (rules R25, R27, R29).
-/

namespace Sys2Proof.Machine

variable {s t : State}

/-! ### The state after reset (rule R44) -/

theorem reset_f (i : Fin 16) : State.reset.f[i] = none := by simp [State.reset]

theorem reset_m (i : Fin 2) : State.reset.m[i] = none := by simp [State.reset]

theorem reset_c (i : Fin 2) : State.reset.c[i] = none := by simp [State.reset]

theorem reset_p (i : Fin 8) : State.reset.p[i] = none := by simp [State.reset]

theorem validBit_reset (r : Reg) : State.reset.validBit r = false := by
  cases r with
  | f i => rw [State.validBit, reset_f, Option.isSome_none]
  | m i => rw [State.validBit, reset_m, Option.isSome_none]
  | c i => rw [State.validBit, reset_c, Option.isSome_none]
  | p i => rw [State.validBit, reset_p, Option.isSome_none]

/-- No register is valid after reset, so the invariant asks nothing of the reset state. -/
theorem inv_reset : State.reset.Inv where
  elems i e he := by rw [reset_f] at he; cases he
  moduli i v hv := by rw [reset_m] at hv; cases hv
  curves i cv hcv := by rw [reset_c] at hcv; cases hcv
  points i u hu := by rw [reset_p] at hu; cases hu

theorem inv_hostReset (s : State) (rest : List PortEvent) : (s.hostReset rest).Inv :=
  ⟨inv_reset.elems, inv_reset.moduli, inv_reset.curves, inv_reset.points⟩

theorem inv_port (h : s.Inv) (rest : List PortEvent) : State.Inv { s with port := rest } :=
  ⟨h.elems, h.moduli, h.curves, h.points⟩

/-! ### Results are well formed (rules R22, R30) -/

theorem check_eq_ok {b : Bool} {e : Err} {u : Unit} (h : check b e = .ok u) : b = true := by
  cases b with
  | true => rfl
  | false => cases h

theorem elemPow_wf {x : Elem} (hx : x.Wf) (e : Int) : (elemPow x e).Wf :=
  reduced_wf hx.1 (modexp_lt _ _ hx.1)

theorem elemInv_wf {x : Elem} (hx : x.Wf) : (elemInv x).Wf :=
  reduced_wf hx.1 (modexp_lt _ _ hx.1)

theorem selectParity_lt {want beta p : Nat} (h : beta < p) : selectParity want beta p < p := by
  unfold selectParity
  split
  · exact h
  · exact tmod_lt _ (by omega)

/-- Each form of the root is the candidate of rule R123 or its complement, both reduced. -/
theorem elemSqrt_wf (form : RootForm) {x : Elem} (hx : x.Wf) : (elemSqrt form x).Wf := by
  have hbeta : sqrtRaw x < x.prime.toNat := modexp_lt _ _ hx.1
  cases form with
  | raw => exact reduced_wf hx.1 hbeta
  | even => exact reduced_wf hx.1 (selectParity_lt hbeta)
  | odd => exact reduced_wf hx.1 (selectParity_lt hbeta)

theorem pointAdd_wf {u v q : CPoint} (hu : u.Wf) (hv : v.Wf) (h : pointAdd u v = .ok q) :
    q.Wf := by
  by_cases hcv : u.cv = v.cv
  · obtain ⟨q', hq', -, hwf⟩ | ⟨x, y, herr⟩ := pointAdd_of_cv_eq hcv
    · obtain rfl : q' = q := by simpa [hq'] using h
      exact hwf hu hv
    · simp [herr] at h
  · simp [pointAdd_of_cv_ne hcv] at h

theorem scalarMul_wf {k : Nat} {u q : CPoint} (hu : u.Wf) (h : scalarMul k u = .ok q) : q.Wf := by
  obtain ⟨q', hq', -, hwf⟩ | ⟨x, y, herr⟩ := scalarMul_answers k u
  · obtain rfl : q' = q := by simpa [hq'] using h
    exact hwf hu
  · simp [herr] at h

/-! ### Commands keep the invariant -/

/-- A command that ends by `complete` is safe when each of its successes keeps the invariant: an
error writes no register (60_exceptions.md rule R236). -/
theorem safe_complete (hs : s.Inv) {r : Except Err State} (h : ∀ t, r = .ok t → t.Inv) :
    Safe (complete s r) := by
  obtain ⟨t, ht, hok | ⟨e, -, rfl⟩⟩ := complete_next s r
  · exact ⟨t, ht, h t hok⟩
  · exact ⟨_, ht, inv_raise hs e⟩

/-- What holds of every success of a sequence is shown of its second part, given what its first
part answered. -/
theorem ok_bind {α β : Type} {x : Except Err α} {k : α → Except Err β} {P : β → Prop}
    (h : ∀ a, x = .ok a → ∀ b, k a = .ok b → P b) : ∀ b, (x >>= k) = .ok b → P b := by
  intro b hb
  obtain ⟨a, ha, hk⟩ := Except.bind_eq_ok.1 hb
  exact h a ha b hk

theorem ok_pure {β : Type} {a : β} {P : β → Prop} (h : P a) :
    ∀ b, (pure a : Except Err β) = .ok b → P b := by
  rintro b ⟨⟩
  exact h

theorem elemBinary_inv (hs : s.Inv) {op : Elem → Elem → Elem}
    (hop : ∀ x y : Elem, x.Wf → (op x y).Wf) (d a b : ElemSel) :
    ∀ t, elemBinary op d a b s = .ok t → t.Inv :=
  ok_bind fun x hx => ok_bind fun y _ => ok_bind fun _ _ =>
    ok_pure (inv_respond (inv_writeF hs d (hop x y (readF_wf hs hx))) _ _)

theorem elemUnary_inv (hs : s.Inv) {op : Elem → Elem} (hop : ∀ x : Elem, x.Wf → (op x).Wf)
    (d a : ElemSel) : ∀ t, elemUnary op d a s = .ok t → t.Inv :=
  ok_bind fun x hx => ok_pure (inv_respond (inv_writeF hs d (hop x (readF_wf hs hx))) _ _)

/-- Every command goes on, and keeps the invariant: its sources are well formed, so what it writes
is. Each arm follows the lines of the command's meaning. -/
theorem exec_safe (i : Instr) (hs : s.Inv) : Safe (exec i s) := by
  cases i with
  | nop => exact safe_complete hs (ok_pure (inv_respond hs _ _))
  | rdst sel => exact safe_complete hs (ok_pure (inv_respond hs _ _))
  | clrst => exact safe_complete hs (ok_pure (inv_respond (inv_clearSticky hs) _ _))
  | mld d payload =>
    exact safe_complete hs <| ok_bind fun j _ => ok_bind fun _ hp =>
      ok_pure (inv_respond (inv_writeM hs j (of_decide_eq_true (check_eq_ok hp))) _ _)
  | mst a => exact safe_complete hs (ok_bind fun _ _ => ok_pure (inv_respond hs _ _))
  | fld d a payload =>
    exact safe_complete hs <| ok_bind fun v hv =>
      ok_pure (inv_respond (inv_writeF hs d (tmod_wf (readM_wf hs hv) _)) _ _)
  | fmov d a => exact safe_complete hs (elemUnary_inv hs (fun _ hx => hx) d a)
  | fst a part => exact safe_complete hs (ok_bind fun _ _ => ok_pure (inv_respond hs _ _))
  | fadd d a b => exact safe_complete hs (elemBinary_inv hs (fun _ _ hx => tmod_wf hx.1 _) d a b)
  | fsub d a b => exact safe_complete hs (elemBinary_inv hs (fun _ _ hx => tmod_wf hx.1 _) d a b)
  | fmul d a b => exact safe_complete hs (elemBinary_inv hs (fun _ _ hx => tmod_wf hx.1 _) d a b)
  | fmuli d a payload =>
    exact safe_complete hs (elemUnary_inv hs (fun _ hx => tmod_wf hx.1 _) d a)
  | fdiv d a b => exact safe_complete hs (elemBinary_inv hs (fun _ _ hx => tmod_wf hx.1 _) d a b)
  | finv d a => exact safe_complete hs (elemUnary_inv hs (fun _ hx => elemInv_wf hx) d a)
  | fpow d a neg payload =>
    exact safe_complete hs (elemUnary_inv hs (fun _ hx => elemPow_wf hx _) d a)
  | fsqrt d a form =>
    exact safe_complete hs <| ok_bind fun x hx => ok_bind fun _ _ =>
      ok_pure (inv_respondTest (inv_writeF hs d (elemSqrt_wf form (readF_wf hs hx))) _)
  | fisz a => exact safe_complete hs (ok_bind fun _ _ => ok_pure (inv_respondTest hs _))
  | feq a b =>
    exact safe_complete hs (ok_bind fun _ _ => ok_bind fun _ _ => ok_pure (inv_respondTest hs _))
  | cmk d a b =>
    refine safe_complete hs <| ok_bind fun j _ => ok_bind fun x hx => ok_bind fun y hy =>
      ok_bind fun _ hp => ok_pure (inv_respond (inv_writeC hs j ?_) _ _)
    have hprime : x.prime = y.prime := eq_of_beq (check_eq_ok hp)
    obtain ⟨htwo, hxlt⟩ := readF_wf hs hx
    obtain ⟨-, hylt⟩ := readF_wf hs hy
    exact ⟨htwo, hxlt, hprime ▸ hylt⟩
  | cst a => exact safe_complete hs (ok_bind fun _ _ => ok_pure (inv_respond hs _ _))
  | pmk d x y c =>
    refine safe_complete hs <| ok_bind fun j _ => ok_bind fun ex hx => ok_bind fun ey hy =>
      ok_bind fun cv hcv => ok_bind fun _ hp => ok_bind fun _ hon =>
        ok_pure (inv_respond (inv_writeP hs j ⟨readC_wf hs hcv, ?_⟩) _ _)
    obtain ⟨hxp, hyp⟩ : ex.prime = cv.p ∧ ey.prime = cv.p := by simpa using check_eq_ok hp
    obtain ⟨-, hxlt⟩ := readF_wf hs hx
    obtain ⟨-, hylt⟩ := readF_wf hs hy
    exact (liesOn_affine _ _ _).2 ⟨hxp ▸ hxlt, hyp ▸ hylt, (onCurve_iff _ _ _).1 (check_eq_ok hon)⟩
  | pinf d c =>
    exact safe_complete hs <| ok_bind fun j _ => ok_bind fun cv hcv =>
      ok_pure (inv_respond (inv_writeP hs j ⟨readC_wf hs hcv, liesOn_infinity cv⟩) _ _)
  | pmov d a =>
    exact safe_complete hs <| ok_bind fun j _ => ok_bind fun u hu =>
      ok_pure (inv_respond (inv_writeP hs j (readP_wf hs hu)) _ _)
  | pst a part => exact safe_complete hs (ok_bind fun _ _ => ok_pure (inv_respond hs _ _))
  | padd d a b =>
    exact safe_complete hs <| ok_bind fun j _ => ok_bind fun u hu => ok_bind fun v hv =>
      ok_bind fun r hr => ok_pure
        (inv_respond (inv_writeP hs j (pointAdd_wf (readP_wf hs hu) (readP_wf hs hv) hr)) _ _)
  | pdbl d a =>
    exact safe_complete hs <| ok_bind fun j _ => ok_bind fun u hu => ok_bind fun r hr => ok_pure
      (inv_respond (inv_writeP hs j (pointAdd_wf (readP_wf hs hu) (readP_wf hs hu) hr)) _ _)
  | pmul d a payload =>
    exact safe_complete hs <| ok_bind fun j _ => ok_bind fun u hu => ok_bind fun r hr =>
      ok_pure (inv_respond (inv_writeP hs j (scalarMul_wf (readP_wf hs hu) hr)) _ _)
  | pmuln d a payload =>
    exact safe_complete hs <| ok_bind fun j _ => ok_bind fun u hu => ok_bind fun _ _ =>
      ok_bind fun r hr =>
        ok_pure (inv_respond (inv_writeP hs j (scalarMul_wf (readP_wf hs hu) hr)) _ _)
  | peq a b =>
    exact safe_complete hs (ok_bind fun _ _ => ok_bind fun _ _ => ok_pure (inv_respondTest hs _))

/-! ### What a response says of the frame -/

theorem Err.ofNat_code_ne_zero (e : Err) : BitVec.ofNat 8 e.code ≠ 0#8 := by
  cases e <;> simp [Err.code]

/-- An error other than PointNotOnCurve leaves `EX` and `EY` (rule R35). -/
theorem raise_coords_of_code_ne_two {e : Err} (h : e.code ≠ 2) (s : State) :
    (s.raise e).ex = s.ex ∧ (s.raise e).ey = s.ey := by
  rw [State.raise_of_code_ne_two s e h]
  exact ⟨rfl, rfl⟩

/-- The one response more of two next states is the same response. -/
theorem response_eq {r r' : Response} (h : t.responses = s.responses ++ [r])
    (h' : t.responses = s.responses ++ [r']) : r = r' :=
  List.singleton_injective (List.append_cancel_left (h.symm.trans h'))

/-! ### Constants as destinations (rules R25, R27, R29) -/

/-- The words of a command are a whole command, so decoding them is decoding its header's fields
(30_encoding.md rules R80, R82). -/
theorem decode_encode (i : Instr) :
    decode (encode i) =
      decodeFields (encodeFields i) (value ((i.payload?.map words).getD [])) := by
  have hlen := (Laws.Length.of_payload i).2
  rw [encode, List.length_cons, Nat.add_comm] at hlen
  rw [encode, decode, if_pos (Nat.add_left_cancel hlen), headerFields_headerWord]

theorem eq_g_of_not_writable {d : PointSel} (h : d.writable = false) : d = .g := by
  cases d with
  | p i => cases h
  | g => rfl

theorem eq_k1_of_not_writable {d : CurveSel} (h : d.writable = false) : d = .k1 := by
  cases d with
  | c i => cases h
  | k1 => rfl

/-- An ill-formed command has a constant as destination: its fields do not decode, by the
destination's selector, and it ends at once with IllegalCommand. -/
theorem illFormed_rejected {i : Instr} (h : i.wellFormed = false) (payload : WInt) (s : State) :
    decodeFields (encodeFields i) payload = .error .badSelector ∧
      exec i s = .next (s.raise .illegalCommand) := by
  cases i with
  | mld d v =>
    cases d with
    | m j => cases h
    | sp => exact ⟨rfl, rfl⟩
    | sn => exact ⟨rfl, rfl⟩
  | cmk d a b => obtain rfl := eq_k1_of_not_writable h; exact ⟨rfl, rfl⟩
  | pmk d x y c => obtain rfl := eq_g_of_not_writable h; exact ⟨rfl, rfl⟩
  | pinf d c => obtain rfl := eq_g_of_not_writable h; exact ⟨rfl, rfl⟩
  | pmov d a => obtain rfl := eq_g_of_not_writable h; exact ⟨rfl, rfl⟩
  | padd d a b => obtain rfl := eq_g_of_not_writable h; exact ⟨rfl, rfl⟩
  | pdbl d a => obtain rfl := eq_g_of_not_writable h; exact ⟨rfl, rfl⟩
  | pmul d a v => obtain rfl := eq_g_of_not_writable h; exact ⟨rfl, rfl⟩
  | pmuln d a v => obtain rfl := eq_g_of_not_writable h; exact ⟨rfl, rfl⟩
  | _ => cases h

/-! ### The statements -/

/-- Settles O14, by what the engine finds at the port: waiting leaves the state, reset leaves one
with no valid register, a legal command is safe by `exec_safe`, an illegal one takes an error. -/
theorem stepIsSafe : Obligations.StepIsSafe := by
  intro s hs
  cases hf : fetch s.port with
  | waiting => exact ⟨s, step_of_waiting hf, hs⟩
  | reset rest => exact ⟨_, step_of_reset hf, inv_hostReset s rest⟩
  | command ws rest =>
    cases hd : decode ws with
    | ok i =>
      rw [step_of_legal hf hd]
      exact exec_safe i (inv_port hs rest)
    | error e => exact ⟨_, step_of_illegal hf hd, inv_raise (inv_port hs rest) _⟩

/-- Settles O58: a success stays within the frame of `exec_inversion`, and an error writes no
register and not `T`, with a response that is not a success's. -/
theorem onlyTheDestinationChanges : Obligations.OnlyTheDestinationChanges := by
  intro i s t r hexec hresp
  obtain ⟨t', ht, frame⟩ | ⟨e, he⟩ := exec_inversion i s
  · obtain rfl : t' = t := by simpa [ht] using hexec
    exact ⟨frame.f, frame.m, frame.c, frame.p, frame.t, fun _ => ⟨frame.ex, frame.ey⟩,
      fun _ => frame.sticky, fun _ => frame.valid, frame.port⟩
  · obtain rfl : s.raise e = t := by simpa [he] using hexec
    obtain rfl := response_eq hresp (State.raise_responses s e)
    refine ⟨fun j _ => by rw [State.raise_f], fun j _ => by rw [State.raise_m],
      fun j _ => by rw [State.raise_c], fun j _ => by rw [State.raise_p],
      fun _ _ => State.raise_t s e, fun hcode => ?_,
      fun hzero => absurd hzero e.ofNat_code_ne_zero,
      fun hzero => absurd hzero e.ofNat_code_ne_zero, State.raise_port s e⟩
    exact raise_coords_of_code_ne_two (fun h2 => hcode (by rw [h2])) s

/-- Settles O12: `validBit_reset`, and the other values of rule R44 as `State.reset` has them. -/
theorem resetValues : Obligations.ResetValues :=
  ⟨validBit_reset, rfl, rfl, rfl, rfl, rfl⟩

/-- Settles O13: no register is valid after reset, and nothing has been returned. -/
theorem invariantHoldsAtReset : Obligations.InvariantHoldsAtReset :=
  ⟨inv_reset, fun _ hr => absurd hr List.not_mem_nil⟩

/-- Settles O7: the destination is the first thing the decoder rejects after the unused fields,
and the first check of a meaning. -/
theorem constantDestinationIsIllegal : Obligations.ConstantDestinationIsIllegal := by
  intro i s h
  obtain ⟨hdecode, hexec⟩ := illFormed_rejected h (value ((i.payload?.map words).getD [])) s
  refine ⟨(decode_encode i).trans hdecode, hexec.trans ?_⟩
  rw [State.raise_of_code_ne_two s .illegalCommand (by decide)]
  rfl

end Sys2Proof.Machine
end

section
/-!
PROOFS. The word order of 20_memory.md: words and value are inverse to each other (rule R62), and
reads have no side effects (rule R67).
-/

namespace Sys2Proof

/-! ### The words of a value (rule R62) -/

theorem getElem_words (v : WInt) (i : Nat) (h : i < (words v).length) :
    (words v)[i] = v.extractLsb' (256 - 32 - 32 * i) 32 := by
  simp [words, Config.W]

theorem toNat_getElem_words (v : WInt) (i : Nat) (h : i < (words v).length) :
    (words v)[i].toNat = v.toNat / 2 ^ (256 - 32 - 32 * i) % 2 ^ 32 := by
  rw [getElem_words, BitVec.extractLsb'_toNat, Nat.shiftRight_eq_div_pow]

/-- Bit `j` of a value is bit `j % 32` of the word `j / 32` places before the last. -/
theorem words_injective : Function.Injective words := by
  intro u v h
  refine BitVec.eq_of_getLsbD_eq fun j hj => ?_
  have hi : 7 - j / 32 < 8 := by omega
  have hword : u.extractLsb' (256 - 32 - 32 * (7 - j / 32)) 32 =
      v.extractLsb' (256 - 32 - 32 * (7 - j / 32)) 32 := by
    rw [← getElem_words u _ (by simpa using hi), ← getElem_words v _ (by simpa using hi)]
    simp only [h]
  have hbit : 256 - 32 - 32 * (7 - j / 32) + j % 32 = j := by omega
  have hlow : j % 32 < 32 := Nat.mod_lt _ (by decide)
  simpa [BitVec.getLsbD_extractLsb', hbit, hlow] using congrArg (·.getLsbD (j % 32)) hword

/-! ### The value of words -/

theorem wordsToNat_concat (ws : List Word) (w : Word) :
    wordsToNat (ws ++ [w]) = wordsToNat ws * 2 ^ 32 + w.toNat := by
  simp [wordsToNat]

theorem wordsToNat_lt (ws : List Word) : wordsToNat ws < 2 ^ (32 * ws.length) := by
  induction ws using List.reverseRecOn with
  | nil => simp [wordsToNat]
  | append_singleton ws w ih =>
    rw [wordsToNat_concat, List.length_append, List.length_singleton, Nat.mul_succ, pow_add]
    have hw := w.isLt
    omega

/-- `value(ws)` as the sum of rule R62. -/
theorem wordsToNat_eq_sum (ws : List Word) :
    wordsToNat ws =
      ∑ i ∈ Finset.range ws.length, (ws.getD i 0#32).toNat * 2 ^ (32 * (ws.length - 1 - i)) := by
  induction ws using List.reverseRecOn with
  | nil => simp [wordsToNat]
  | append_singleton ws w ih =>
    rw [wordsToNat_concat, ih, List.length_append, List.length_singleton, Finset.sum_range_succ,
      Finset.sum_mul]
    congr 1
    · refine Finset.sum_congr rfl fun i hi => ?_
      have hlt : i < ws.length := Finset.mem_range.1 hi
      rw [List.getD_append _ _ _ _ hlt, mul_assoc, ← pow_add]
      congr 2
      omega
    · simp

/-- Each word is found again at its weight. -/
theorem wordsToNat_div_mod (ws : List Word) (i : Nat) (h : i < ws.length) :
    wordsToNat ws / 2 ^ (32 * (ws.length - 1 - i)) % 2 ^ 32 = ws[i].toNat := by
  induction ws using List.reverseRecOn with
  | nil => simp at h
  | append_singleton ws w ih =>
    have hw := w.isLt
    rw [wordsToNat_concat, List.length_append, List.length_singleton]
    by_cases hi : i < ws.length
    · have hexp : 32 * (ws.length + 1 - 1 - i) = 32 + 32 * (ws.length - 1 - i) := by omega
      have hdrop : (wordsToNat ws * 2 ^ 32 + w.toNat) / 2 ^ 32 = wordsToNat ws := by omega
      rw [hexp, pow_add, ← Nat.div_div_eq_div_mul, hdrop, ih hi, List.getElem_append_left hi]
    · rw [List.length_append, List.length_singleton] at h
      obtain rfl : i = ws.length := by omega
      have hexp : 32 * (ws.length + 1 - 1 - ws.length) = 0 := by omega
      rw [hexp, List.getElem_concat_length rfl]
      omega

theorem toNat_value {ws : List Word} (h : ws.length = 8) : (value ws).toNat = wordsToNat ws := by
  have hlt := wordsToNat_lt ws
  rw [h] at hlt
  rw [value, BitVec.toNat_ofNat, Nat.mod_eq_of_lt hlt]

/-! ### Words and value are inverse to each other -/

theorem words_value {ws : List Word} (h : ws.length = 8) : words (value ws) = ws := by
  refine List.ext_getElem (by rw [words_length, h]) fun i hi hi' => BitVec.eq_of_toNat_eq ?_
  have hexp : 256 - 32 - 32 * i = 32 * (ws.length - 1 - i) := by omega
  rw [toNat_getElem_words, toNat_value h, hexp, wordsToNat_div_mod ws i hi']

theorem value_words (v : WInt) : value (words v) = v :=
  words_injective (words_value (words_length v))

/-- Settles O19: a word of a value is a slice of its bits, each word of eight is found again at its
weight, and a value is determined by its words. -/
theorem wordOrderIsMostSignificantFirst : Obligations.WordOrderIsMostSignificantFirst := by
  refine ⟨words_length, fun v i w hw => ?_, value_words, fun ws h => ⟨words_value h, ?_⟩⟩
  · obtain ⟨hi, rfl⟩ := List.getElem?_eq_some_iff.1 hw
    exact toNat_getElem_words v i hi
  · rw [toNat_value h, wordsToNat_eq_sum, h]

end Sys2Proof

namespace Sys2Proof.Machine

/-! ### Reads and tests (rule R67) -/

variable {i : Instr} {s : State}

/-- A command that reads one operand and answers its data, or takes the error of the read: the
responses already given do not enter the answer. -/
theorem complete_read {α : Type} {read : State → Except Err α}
    (hread : ∀ (s : State) (rs : List Response), read { s with responses := rs } = read s)
    (data : α → List Word) (s : State) :
    (∃ ws, ∀ rs, complete { s with responses := rs }
        (do let v ← read { s with responses := rs }
            return State.respond { s with responses := rs } false (data v)) =
          .next (State.respond { s with responses := rs } false ws)) ∨
      ∃ e, complete s (do let v ← read s; return s.respond false (data v)) =
        .next (s.raise e) := by
  cases h : read s with
  | ok v => exact .inl ⟨data v, fun rs => by rw [hread, h]; rfl⟩
  | error e => exact .inr ⟨e, rfl⟩

/-- A read answers data that the responses before it do not affect, or takes an error. -/
theorem exec_of_effect_none (h : i.effect = .none) (s : State) :
    (∃ data, ∀ rs, exec i { s with responses := rs } =
        .next (State.respond { s with responses := rs } false data)) ∨
      ∃ e, exec i s = .next (s.raise e) := by
  cases i with
  | nop => exact .inl ⟨[], fun _ => rfl⟩
  | rdst sel =>
    cases sel with
    | status => exact .inl ⟨[s.status], fun _ => rfl⟩
    | errinfo => exact .inl ⟨words s.ex ++ words s.ey, fun _ => rfl⟩
    | ident => exact .inl ⟨[Config.id], fun _ => rfl⟩
  | mst a => exact complete_read (read := (·.readM a)) (fun _ _ => rfl) words s
  | fst a part =>
    cases part with
    | value => exact complete_read (read := (·.readF a)) (fun _ _ => rfl) (words ·.val) s
    | prime => exact complete_read (read := (·.readF a)) (fun _ _ => rfl) (words ·.prime) s
  | cst a => exact complete_read (read := (·.readC a)) (fun _ _ => rfl) curveWords s
  | pst a part =>
    cases part with
    | coords => exact complete_read (read := (·.readP a)) (fun _ _ => rfl) (pointWords ·.pt) s
    | curve => exact complete_read (read := (·.readP a)) (fun _ _ => rfl) (curveWords ·.cv) s
  | _ => cases h

/-- A command each of whose successes ends as a test does either ends so or takes an error. -/
theorem complete_test {x : Except Err State} (h : ∀ t, x = .ok t → ∃ b, t = s.respondTest b) :
    (∃ b, complete s x = .next (s.respondTest b)) ∨ ∃ e, complete s x = .next (s.raise e) := by
  cases x with
  | ok t =>
    obtain ⟨b, rfl⟩ := h t rfl
    exact .inl ⟨b, rfl⟩
  | error e => exact .inr ⟨e, rfl⟩

/-- A test writes `T` with the flag it answers, or takes an error (10_state.md rule R33). -/
theorem exec_of_effect_test (h : i.effect = .test) (s : State) :
    (∃ b, exec i s = .next (s.respondTest b)) ∨ ∃ e, exec i s = .next (s.raise e) := by
  cases i with
  | fisz a => exact complete_test (ok_bind fun x _ => ok_pure ⟨isZero x, rfl⟩)
  | feq a b =>
    exact complete_test (ok_bind fun x _ => ok_bind fun y _ => ok_pure ⟨elemEq x y, rfl⟩)
  | peq a b =>
    exact complete_test (ok_bind fun u _ => ok_bind fun v _ => ok_pure ⟨pointEq u v, rfl⟩)
  | _ => cases h

/-- A command whose response has no error code has not taken an error. -/
theorem exec_ne_raise_of_err_eq_zero {t : State} {r : Response} (hexec : exec i s = .next t)
    (hresp : t.responses = s.responses ++ [r]) (hzero : r.err = 0#8) (e : Err) :
    exec i s ≠ .next (s.raise e) := by
  intro he
  obtain rfl : s.raise e = t := by simpa [he] using hexec
  obtain rfl := response_eq hresp (State.raise_responses s e)
  exact e.ofNat_code_ne_zero hzero

/-- Settles O59: a success is not an error taken, so a read has answered data that a repetition
answers again (`exec_of_effect_none`), and a test has written the flag it answers
(`exec_of_effect_test`). -/
theorem readsHaveNoSideEffects : Obligations.ReadsHaveNoSideEffects := by
  intro i s t r hexec hresp hzero
  have hok := exec_ne_raise_of_err_eq_zero hexec hresp hzero
  refine ⟨fun h => ?_, fun h => ?_⟩
  · obtain ⟨data, hread⟩ | ⟨e, he⟩ := exec_of_effect_none h s
    · obtain rfl : s.respond false data = t := by simpa [hread s.responses] using hexec
      obtain rfl := response_eq hresp (State.respond_responses s false data)
      exact ⟨rfl, hread _⟩
    · exact absurd he (hok e)
  · obtain ⟨b, hb⟩ | ⟨e, he⟩ := exec_of_effect_test h s
    · obtain rfl : s.respondTest b = t := by simpa [hb] using hexec
      obtain rfl := response_eq hresp rfl
      exact State.respondTest_eq s b
    · exact absurd he (hok e)

end Sys2Proof.Machine
end

section
/-!
PROOFS. The encodings of 30_encoding.md: decode and encode are inverse to each other (rules R80 to
R86).
-/

namespace Sys2Proof

open Sys2Proof.Machine (decode_encode decode_eq_ok_length Except.bind_eq_ok)

/-! ### The words of a command -/

theorem decode_cons {h : Word} {payload : List Word} (hlen : payload.length = payloadLength h) :
    decode (h :: payload) = decodeFields (headerFields h) (value payload) := if_pos hlen

theorem decode_cons_of_length_ne {h : Word} {payload : List Word}
    (hlen : payload.length ≠ payloadLength h) : decode (h :: payload) = .error .badLength :=
  if_neg hlen

/-- The payload read back from a command's words is its own, or 0 when it has none. -/
theorem value_payloadWords (i : Instr) :
    value ((i.payload?.map words).getD []) = i.payload?.getD 0#256 := by
  cases i.payload? with
  | none => rfl
  | some v => exact value_words v

/-! ### Encoding, then decoding -/

/-- A sequence answers when its first part does, and its second part on that answer. -/
theorem ok_seq {α β : Type} {x : Except Illegal α} {k : α → Except Illegal β} {a : α} {b : β}
    (hx : x = .ok a) (hk : k a = .ok b) : (x >>= k) = .ok b :=
  Except.bind_eq_ok.2 ⟨a, hx, hk⟩

/-- Each arm of the decoder accepts the fields of its command: the checks of unused fields succeed
by evaluation, and each selector and `fn` value decodes to what it encodes. -/
theorem decodeFields_encodeFields {i : Instr} (h : i.wellFormed = true) :
    decodeFields (encodeFields i) (i.payload?.getD 0#256) = .ok i := by
  cases i with
  | nop => rfl
  | rdst sel => exact ok_seq rfl <| ok_seq ((decodeStatusSel_eq_ok _ _).2 rfl) rfl
  | clrst => rfl
  | mld d v => exact ok_seq rfl <| ok_seq rfl <| ok_seq (decodeModDest_encodeMod h) rfl
  | mst a => exact ok_seq rfl <| ok_seq rfl <| ok_seq (decodeMod_encodeMod a) rfl
  | fld d a v => exact ok_seq rfl <| ok_seq rfl <| ok_seq (decodeMod_encodeMod a) rfl
  | fmov d a => rfl
  | fst a part => exact ok_seq rfl <| ok_seq ((decodeElemPart_eq_ok _ _).2 rfl) rfl
  | fadd d a b => rfl
  | fsub d a b => rfl
  | fmul d a b => rfl
  | fmuli d a v => rfl
  | fdiv d a b => rfl
  | finv d a => rfl
  | fpow d a neg v => exact ok_seq rfl <| ok_seq ((decodeNeg_eq_ok _ _).2 rfl) rfl
  | fsqrt d a form => exact ok_seq rfl <| ok_seq ((decodeRootForm_eq_ok _ _).2 rfl) rfl
  | fisz a => rfl
  | feq a b => rfl
  | cmk d a b => exact ok_seq rfl <| ok_seq rfl <| ok_seq (decodeCurveDest_encodeCurve h) rfl
  | cst a => exact ok_seq rfl <| ok_seq rfl <| ok_seq (decodeCurve_encodeCurve a) rfl
  | pmk d x y c =>
    exact ok_seq rfl <| ok_seq (decodePointDest_encodePoint h) <|
      ok_seq (decodeCurve_encodeCurve c) rfl
  | pinf d c =>
    exact ok_seq rfl <| ok_seq rfl <| ok_seq (decodePointDest_encodePoint h) <|
      ok_seq (decodeCurve_encodeCurve c) rfl
  | pmov d a =>
    exact ok_seq rfl <| ok_seq rfl <| ok_seq (decodePointDest_encodePoint h) <|
      ok_seq (decodePoint_encodePoint a) rfl
  | pst a part =>
    exact ok_seq rfl <| ok_seq (decodePoint_encodePoint a) <|
      ok_seq ((decodePointPart_eq_ok _ _).2 rfl) rfl
  | padd d a b =>
    exact ok_seq rfl <| ok_seq rfl <| ok_seq (decodePointDest_encodePoint h) <|
      ok_seq (decodePoint_encodePoint a) <| ok_seq (decodePoint_encodePoint b) rfl
  | pdbl d a =>
    exact ok_seq rfl <| ok_seq rfl <| ok_seq (decodePointDest_encodePoint h) <|
      ok_seq (decodePoint_encodePoint a) rfl
  | pmul d a v =>
    exact ok_seq rfl <| ok_seq rfl <| ok_seq (decodePointDest_encodePoint h) <|
      ok_seq (decodePoint_encodePoint a) rfl
  | pmuln d a v =>
    exact ok_seq rfl <| ok_seq rfl <| ok_seq (decodePointDest_encodePoint h) <|
      ok_seq (decodePoint_encodePoint a) rfl
  | peq a b =>
    exact ok_seq rfl <| ok_seq rfl <| ok_seq (decodePoint_encodePoint a) <|
      ok_seq (decodePoint_encodePoint b) rfl

/-- Settles O2: a command's words are its header and its payload, and each arm of the decoder
accepts its command's fields (`decodeFields_encodeFields`). -/
theorem decodeOfEncodeIsIdentity : Obligations.DecodeOfEncodeIsIdentity := by
  intro i h
  rw [decode_encode, value_payloadWords, decodeFields_encodeFields h]

/-! ### Decoding, then encoding -/

/-- What a success of `checkUnused` says: each field that the format does not use is zero. -/
structure UnusedZero (x : Header) (rd ra rb rc : Bool) : Prop where
  rd : rd = false → 0#4 = x.rd
  ra : ra = false → 0#4 = x.ra
  rb : rb = false → 0#4 = x.rb
  rc : rc = false → 0#4 = x.rc

theorem checkUnused_eq_ok {x : Header} {rd ra rb rc : Bool} {u : Unit}
    (h : checkUnused x rd ra rb rc = .ok u) : UnusedZero x rd ra rb rc := by
  unfold checkUnused at h
  split at h
  next hb =>
    simp only [Bool.and_eq_true, Bool.or_eq_true, beq_iff_eq] at hb
    obtain ⟨⟨⟨hrd, hra⟩, hrb⟩, hrc⟩ := hb
    constructor <;> rintro rfl <;> simp_all
  next => cases h

theorem checkNoFn_eq_ok {x : Header} {u : Unit} (h : checkNoFn x = .ok u) : 0#8 = x.fn := by
  unfold checkNoFn at h
  split at h
  next hb => exact (eq_of_beq hb).symm
  next => cases h

/-- A header is determined by its six fields. -/
theorem header_eq {x : Header} {op fn : BitVec 8} {rd ra rb rc : BitVec 4}
    (hop : x.op.toNat = op.toNat) (hrd : rd = x.rd) (hra : ra = x.ra) (hrb : rb = x.rb)
    (hrc : rc = x.rc) (hfn : fn = x.fn) : (⟨op, rd, ra, rb, rc, fn⟩ : Header) = x := by
  obtain rfl := BitVec.eq_of_toNat_eq hop
  subst hrd hra hrb hrc hfn
  rfl

/-- The command `i` is legal, and has the header fields `x` and, if it has a payload, the payload
`v`. -/
structure Encodes (i : Instr) (x : Header) (v : WInt) : Prop where
  wellFormed : i.wellFormed = true
  fields : encodeFields i = x
  payload : i.payload?.getD v = v

/-! What holds of every answer of a sequence, by what each of its parts has answered: the lemmas
follow the lines of `decodeFields`. -/

section
variable {x : Header} {P : Instr → Prop}

/-- What holds of every answer of a sequence is shown of its second part, given what its first
part answered. -/
theorem all_seq {α : Type} {p : Except Illegal α} {k : α → Except Illegal Instr}
    (h : ∀ a, p = .ok a → ∀ i, k a = .ok i → P i) : ∀ i, (p >>= k) = .ok i → P i := by
  intro i hi
  obtain ⟨a, ha, hk⟩ := Except.bind_eq_ok.1 hi
  exact h a ha i hk

theorem all_unused {rd ra rb rc : Bool} {k : Unit → Except Illegal Instr}
    (h : UnusedZero x rd ra rb rc → ∀ i, k () = .ok i → P i) :
    ∀ i, (checkUnused x rd ra rb rc >>= k) = .ok i → P i :=
  all_seq fun _ hu => h (checkUnused_eq_ok hu)

theorem all_noFn {k : Unit → Except Illegal Instr}
    (h : 0#8 = x.fn → ∀ i, k () = .ok i → P i) : ∀ i, (checkNoFn x >>= k) = .ok i → P i :=
  all_seq fun _ hf => h (checkNoFn_eq_ok hf)

/-- The two checks of a format without function bits (rule R85). -/
theorem all_checked {rd ra rb rc : Bool} {k : Unit → Except Illegal Instr}
    (h : UnusedZero x rd ra rb rc → 0#8 = x.fn → ∀ i, k () = .ok i → P i) :
    ∀ i, (checkUnused x rd ra rb rc >>= fun _ => checkNoFn x >>= k) = .ok i → P i :=
  all_unused fun hu => all_noFn (h hu)

theorem all_modDest {v : BitVec 4} {k : ModSel → Except Illegal Instr}
    (h : ∀ d, d.writable = true → encodeMod d = v → ∀ i, k d = .ok i → P i) :
    ∀ i, (decodeModDest v >>= k) = .ok i → P i :=
  all_seq fun d hd =>
    have ⟨hd, hw⟩ := (decodeModDest_eq_ok v d).1 hd
    h d hw (decodeMod_eq_ok v d hd)

theorem all_curveDest {v : BitVec 4} {k : CurveSel → Except Illegal Instr}
    (h : ∀ d, d.writable = true → encodeCurve d = v → ∀ i, k d = .ok i → P i) :
    ∀ i, (decodeCurveDest v >>= k) = .ok i → P i :=
  all_seq fun d hd =>
    have ⟨hd, hw⟩ := (decodeCurveDest_eq_ok v d).1 hd
    h d hw (decodeCurve_eq_ok v d hd)

theorem all_pointDest {v : BitVec 4} {k : PointSel → Except Illegal Instr}
    (h : ∀ d, d.writable = true → encodePoint d = v → ∀ i, k d = .ok i → P i) :
    ∀ i, (decodePointDest v >>= k) = .ok i → P i :=
  all_seq fun d hd =>
    have ⟨hd, hw⟩ := (decodePointDest_eq_ok v d).1 hd
    h d hw (decodePoint_eq_ok v d hd)

theorem all_pure {i : Instr} (h : P i) : ∀ j, (pure i : Except Illegal Instr) = .ok j → P j := by
  rintro j ⟨⟩
  exact h

end

/-- Each arm of the decoder answers a legal command that has the fields it was given: the fields
its format does not use have been checked to be zero, and each selector and `fn` value encodes to
what it was decoded from. -/
theorem encodes_of_decodeFields (x : Header) (v : WInt) :
    ∀ i, decodeFields x v = .ok i → Encodes i x v := by
  unfold decodeFields
  split
  next hop => -- NOP
    exact all_checked fun hu hf =>
      all_pure ⟨rfl, header_eq hop (hu.rd rfl) (hu.ra rfl) (hu.rb rfl) (hu.rc rfl) hf, rfl⟩
  next hop => -- RDST
    exact all_unused fun hu => all_seq fun _ hs =>
      all_pure ⟨rfl, header_eq hop (hu.rd rfl) (hu.ra rfl) (hu.rb rfl) (hu.rc rfl)
        ((decodeStatusSel_eq_ok _ _).1 hs), rfl⟩
  next hop => -- CLRST
    exact all_checked fun hu hf =>
      all_pure ⟨rfl, header_eq hop (hu.rd rfl) (hu.ra rfl) (hu.rb rfl) (hu.rc rfl) hf, rfl⟩
  next hop => -- MLD
    exact all_checked fun hu hf => all_modDest fun _ hw hd =>
      all_pure ⟨hw, header_eq hop hd (hu.ra rfl) (hu.rb rfl) (hu.rc rfl) hf, rfl⟩
  next hop => -- MST
    exact all_checked fun hu hf => all_seq fun _ ha =>
      all_pure ⟨rfl, header_eq hop (hu.rd rfl) (decodeMod_eq_ok _ _ ha) (hu.rb rfl)
        (hu.rc rfl) hf, rfl⟩
  next hop => -- FLD
    exact all_checked fun hu hf => all_seq fun _ ha =>
      all_pure ⟨rfl, header_eq hop rfl (decodeMod_eq_ok _ _ ha) (hu.rb rfl) (hu.rc rfl) hf, rfl⟩
  next hop => -- FMOV
    exact all_checked fun hu hf =>
      all_pure ⟨rfl, header_eq hop rfl rfl (hu.rb rfl) (hu.rc rfl) hf, rfl⟩
  next hop => -- FST
    exact all_unused fun hu => all_seq fun _ hp =>
      all_pure ⟨rfl, header_eq hop (hu.rd rfl) rfl (hu.rb rfl) (hu.rc rfl)
        ((decodeElemPart_eq_ok _ _).1 hp), rfl⟩
  next hop => -- FADD
    exact all_checked fun hu hf => all_pure ⟨rfl, header_eq hop rfl rfl rfl (hu.rc rfl) hf, rfl⟩
  next hop => -- FSUB
    exact all_checked fun hu hf => all_pure ⟨rfl, header_eq hop rfl rfl rfl (hu.rc rfl) hf, rfl⟩
  next hop => -- FMUL
    exact all_checked fun hu hf => all_pure ⟨rfl, header_eq hop rfl rfl rfl (hu.rc rfl) hf, rfl⟩
  next hop => -- FMULI
    exact all_checked fun hu hf =>
      all_pure ⟨rfl, header_eq hop rfl rfl (hu.rb rfl) (hu.rc rfl) hf, rfl⟩
  next hop => -- FDIV
    exact all_checked fun hu hf => all_pure ⟨rfl, header_eq hop rfl rfl rfl (hu.rc rfl) hf, rfl⟩
  next hop => -- FINV
    exact all_checked fun hu hf =>
      all_pure ⟨rfl, header_eq hop rfl rfl (hu.rb rfl) (hu.rc rfl) hf, rfl⟩
  next hop => -- FPOW
    exact all_unused fun hu => all_seq fun _ hn =>
      all_pure ⟨rfl, header_eq hop rfl rfl (hu.rb rfl) (hu.rc rfl)
        ((decodeNeg_eq_ok _ _).1 hn), rfl⟩
  next hop => -- FSQRT
    exact all_unused fun hu => all_seq fun _ hr =>
      all_pure ⟨rfl, header_eq hop rfl rfl (hu.rb rfl) (hu.rc rfl)
        ((decodeRootForm_eq_ok _ _).1 hr), rfl⟩
  next hop => -- FISZ
    exact all_checked fun hu hf =>
      all_pure ⟨rfl, header_eq hop (hu.rd rfl) rfl (hu.rb rfl) (hu.rc rfl) hf, rfl⟩
  next hop => -- FEQ
    exact all_checked fun hu hf =>
      all_pure ⟨rfl, header_eq hop (hu.rd rfl) rfl rfl (hu.rc rfl) hf, rfl⟩
  next hop => -- CMK
    exact all_checked fun hu hf => all_curveDest fun _ hw hd =>
      all_pure ⟨hw, header_eq hop hd rfl rfl (hu.rc rfl) hf, rfl⟩
  next hop => -- CST
    exact all_checked fun hu hf => all_seq fun _ ha =>
      all_pure ⟨rfl, header_eq hop (hu.rd rfl) (decodeCurve_eq_ok _ _ ha) (hu.rb rfl)
        (hu.rc rfl) hf, rfl⟩
  next hop => -- PMK
    exact all_noFn fun hf => all_pointDest fun _ hw hd => all_seq fun _ hc =>
      all_pure ⟨hw, header_eq hop hd rfl rfl (decodeCurve_eq_ok _ _ hc) hf, rfl⟩
  next hop => -- PINF
    exact all_checked fun hu hf => all_pointDest fun _ hw hd => all_seq fun _ hc =>
      all_pure ⟨hw, header_eq hop hd (hu.ra rfl) (hu.rb rfl) (decodeCurve_eq_ok _ _ hc) hf, rfl⟩
  next hop => -- PMOV
    exact all_checked fun hu hf => all_pointDest fun _ hw hd => all_seq fun _ ha =>
      all_pure ⟨hw, header_eq hop hd (decodePoint_eq_ok _ _ ha) (hu.rb rfl) (hu.rc rfl) hf, rfl⟩
  next hop => -- PST
    exact all_unused fun hu => all_seq fun _ ha => all_seq fun _ hp =>
      all_pure ⟨rfl, header_eq hop (hu.rd rfl) (decodePoint_eq_ok _ _ ha) (hu.rb rfl)
        (hu.rc rfl) ((decodePointPart_eq_ok _ _).1 hp), rfl⟩
  next hop => -- PADD
    exact all_checked fun hu hf => all_pointDest fun _ hw hd => all_seq fun _ ha =>
      all_seq fun _ hb =>
      all_pure ⟨hw, header_eq hop hd (decodePoint_eq_ok _ _ ha) (decodePoint_eq_ok _ _ hb)
        (hu.rc rfl) hf, rfl⟩
  next hop => -- PDBL
    exact all_checked fun hu hf => all_pointDest fun _ hw hd => all_seq fun _ ha =>
      all_pure ⟨hw, header_eq hop hd (decodePoint_eq_ok _ _ ha) (hu.rb rfl) (hu.rc rfl) hf, rfl⟩
  next hop => -- PMUL
    exact all_checked fun hu hf => all_pointDest fun _ hw hd => all_seq fun _ ha =>
      all_pure ⟨hw, header_eq hop hd (decodePoint_eq_ok _ _ ha) (hu.rb rfl) (hu.rc rfl) hf, rfl⟩
  next hop => -- PMULN
    exact all_checked fun hu hf => all_pointDest fun _ hw hd => all_seq fun _ ha =>
      all_pure ⟨hw, header_eq hop hd (decodePoint_eq_ok _ _ ha) (hu.rb rfl) (hu.rc rfl) hf, rfl⟩
  next hop => -- PEQ
    exact all_checked fun hu hf => all_seq fun _ ha => all_seq fun _ hb =>
      all_pure ⟨rfl, header_eq hop (hu.rd rfl) (decodePoint_eq_ok _ _ ha)
        (decodePoint_eq_ok _ _ hb) (hu.rc rfl) hf, rfl⟩
  next =>
    rintro _ ⟨⟩

/-- The payload words of a legal command are those its fields were decoded with. -/
theorem payloadWords_of_encodes {i : Instr} {h : Word} {payload : List Word}
    (hi : Encodes i (headerFields h) (value payload)) (hlen : payload.length = payloadLength h) :
    (i.payload?.map words).getD [] = payload := by
  rw [payloadLength, ← hi.fields, opHasPayload_encodeFields] at hlen
  have hv := hi.payload
  cases hp : i.payload? with
  | none =>
    rw [hp] at hlen
    exact (List.length_eq_zero_iff.1 hlen).symm
  | some w =>
    rw [hp] at hlen hv
    obtain rfl : w = value payload := hv
    exact words_value hlen

/-- Settles O3: the decoded command has the header's fields (`encodes_of_decodeFields`), hence the
header word, and the payload's value, hence its words. -/
theorem decodedWordsAreTheEncoding : Obligations.DecodedWordsAreTheEncoding := by
  intro ws i hd
  obtain ⟨h, payload, rfl, hlen⟩ := decode_eq_ok_length hd
  rw [decode_cons hlen] at hd
  have hi := encodes_of_decodeFields _ _ i hd
  refine ⟨hi.wellFormed, ?_⟩
  rw [encode, hi.fields, headerWord_headerFields, payloadWords_of_encodes hi hlen]

end Sys2Proof
end

section
/-!
PROOFS. What a step takes and answers: the opcode alone decides the length of a command (rule R80),
an illegal command is taken whole and looked at no further than its header (rules R87, R88), and a
command gives one response, laid out and as long as rules R90 and R91 say.
-/

namespace Sys2Proof

/-! ### Errors of the decoder do not depend on the payload (rule R88) -/

/-- The second of two answers takes every error that the first takes. -/
def KeepsErrors {α : Type} (p q : Except Illegal α) : Prop := ∀ e, p = .error e → q = .error e

theorem KeepsErrors.refl {α : Type} (p : Except Illegal α) : KeepsErrors p p := fun _ he => he

theorem KeepsErrors.seq {α β : Type} {p : Except Illegal α} {k k' : α → Except Illegal β}
    (h : ∀ a, KeepsErrors (k a) (k' a)) : KeepsErrors (p >>= k) (p >>= k') := by
  cases p with
  | ok a => exact h a
  | error e => exact .refl _

theorem KeepsErrors.pure {α : Type} (a b : α) :
    KeepsErrors (Pure.pure a : Except Illegal α) (Pure.pure b) := by
  rintro e ⟨⟩

/-- The arms of the decoder look at the payload only when they answer a command that carries it. -/
theorem decodeFields_keepsErrors (x : Header) (v w : WInt) :
    KeepsErrors (decodeFields x v) (decodeFields x w) := by
  unfold decodeFields
  split
  any_goals apply KeepsErrors.refl -- the arms of the commands without a payload
  next => -- MLD
    exact .seq fun _ => .seq fun _ => .seq fun _ => .pure _ _
  next => -- FLD
    exact .seq fun _ => .seq fun _ => .seq fun _ => .pure _ _
  next => -- FMULI
    exact .seq fun _ => .seq fun _ => .pure _ _
  next => -- FPOW
    exact .seq fun _ => .seq fun _ => .pure _ _
  next => -- PMUL
    exact .seq fun _ => .seq fun _ => .seq fun _ => .seq fun _ => .pure _ _
  next => -- PMULN
    exact .seq fun _ => .seq fun _ => .seq fun _ => .seq fun _ => .pure _ _

theorem decode_keepsErrors (h : Word) {payload payload' : List Word}
    (hlen : payload.length = payload'.length) :
    KeepsErrors (decode (h :: payload)) (decode (h :: payload')) := by
  by_cases hp : payload.length = payloadLength h
  · rw [decode_cons hp, decode_cons (hlen ▸ hp)]
    exact decodeFields_keepsErrors _ _ _
  · rw [decode_cons_of_length_ne hp, decode_cons_of_length_ne (hlen ▸ hp)]
    exact .refl _

/-! ### Opcodes outside the table (rule R87) -/

/-- The ranges of rule R87. -/
def UndefinedOpcode (op : Nat) : Prop :=
  op = 0x00 ∨ (0x04 ≤ op ∧ op ≤ 0x0F) ∨ (0x12 ≤ op ∧ op ≤ 0x1F) ∨ (0x2D ≤ op ∧ op ≤ 0x2F) ∨
    (0x32 ≤ op ∧ op ≤ 0x3F) ∨ (0x49 ≤ op ∧ op ≤ 0xFF)

theorem not_undefinedOpcode_encodeFields (i : Instr) :
    ¬ UndefinedOpcode (encodeFields i).op.toNat := by
  cases i <;> simp [encodeFields, UndefinedOpcode]

theorem not_mem_payloadOpcodes_of_undefined {op : BitVec 8} (h : UndefinedOpcode op.toNat) :
    op ∉ payloadOpcodes := by
  intro hop
  fin_cases hop <;> simp [UndefinedOpcode] at h

/-- A header with such an opcode does not decode, since what decodes has the opcode of a command. -/
theorem decode_of_undefinedOpcode {h : Word} (hop : UndefinedOpcode (h.extractLsb' 24 8).toNat)
    (payload : List Word) : ∃ e, decode (h :: payload) = .error e := by
  cases hd : decode (h :: payload) with
  | error e => exact ⟨e, rfl⟩
  | ok i =>
    obtain ⟨-, hi⟩ := decodedWordsAreTheEncoding _ _ hd
    have hh : headerWord (encodeFields i) = h := (List.cons.inj hi).1
    have hx : encodeFields i = headerFields h := by rw [← hh, headerFields_headerWord]
    change UndefinedOpcode (headerFields h).op.toNat at hop
    rw [← hx] at hop
    exact absurd hop (not_undefinedOpcode_encodeFields i)

end Sys2Proof

namespace Sys2Proof.Machine

variable {s t : State}

/-! ### What the step takes (rules R80, R88) -/

/-- A header and the payload its opcode calls for are what the engine takes. -/
theorem fetch_of_port {h : Word} {payload : List Word} {rest : List PortEvent}
    (hlen : payload.length = if h.extractLsb' 24 8 ∈ payloadOpcodes then 8 else 0)
    (hport : s.port = present (h :: payload) ++ rest) :
    fetch s.port = .command (h :: payload) rest := by
  rw [hport, fetch_present h payload rest (hlen.trans (payloadLength_eq h).symm)]

/-- Taking IllegalCommand, written out (60_exceptions.md rule R236). -/
theorem State.raise_illegalCommand (s : State) :
    s.raise .illegalCommand = { s with
      sticky := s.sticky ||| 0b0001000#7
      responses := s.responses ++ [⟨4#8, false, []⟩] } := rfl

/-- Settles O4: the engine takes these words (`fetch_of_port`); a legal command then gives its
response by `exec_responds_once`, an illegal one gives its error's. -/
theorem lengthIsDecidedByOpcodeAlone : Obligations.LengthIsDecidedByOpcodeAlone := by
  intro s h payload rest hlen hport
  have hf := fetch_of_port hlen hport
  cases hd : decode (h :: payload) with
  | ok i =>
    obtain ⟨t, r, ht, hrest, hr⟩ := exec_responds_once i { s with port := rest }
    exact ⟨t, r, (step_of_legal hf hd).trans ht, hrest, hr⟩
  | error e =>
    exact ⟨_, _, step_of_illegal hf hd, State.raise_port _ _, State.raise_responses _ _⟩

/-- Settles O6: the engine takes the words of an illegal command as those of a legal one, and the
decoder's errors do not depend on the payload (`decode_keepsErrors`). -/
theorem illegalCommandTakesItsWords : Obligations.IllegalCommandTakesItsWords := by
  refine ⟨fun s h payload rest e hlen hd hport => ?_, fun h payload payload' e hlen => ?_⟩
  · rw [step_of_illegal (fetch_of_port hlen hport) hd, State.raise_illegalCommand]
  · exact decode_keepsErrors h hlen e

/-- Settles O5: such a header calls for no payload and does not decode
(`decode_of_undefinedOpcode`), so the step is that of an illegal command of one word. -/
theorem undefinedOpcodeIsIllegal : Obligations.UndefinedOpcodeIsIllegal := by
  rintro s h rest _ rfl hop hport
  obtain ⟨e, hd⟩ := decode_of_undefinedOpcode hop []
  have hlen : ([] : List Word).length = if h.extractLsb' 24 8 ∈ payloadOpcodes then 8 else 0 := by
    rw [if_neg (not_mem_payloadOpcodes_of_undefined hop), List.length_nil]
  exact illegalCommandTakesItsWords.1 s h [] rest e hlen hd hport

/-! ### What a command answers (rules R90, R91) -/

/-- Settles O17: this is what `exec_responds_once` draws from the inversion of `exec`. -/
theorem everyCommandGivesOneResponse : Obligations.EveryCommandGivesOneResponse :=
  exec_responds_once

/-- Joined bit vectors are added at their places. -/
theorem toNat_append_eq_add {n m : Nat} (x : BitVec n) (y : BitVec m) :
    (x ++ y).toNat = y.toNat + 2 ^ m * x.toNat := by
  rw [BitVec.toNat_append, ← Nat.shiftLeft_add_eq_or_of_lt y.isLt, Nat.shiftLeft_eq, Nat.add_comm,
    Nat.mul_comm]

/-- Settles O18: the flag with its zeros above it is joined to the error code. -/
theorem responseWordLayout : Obligations.ResponseWordLayout := by
  intro r
  refine ⟨rfl, ?_⟩
  have hflag : (0#23 ++ BitVec.ofBool r.flag).toNat = if r.flag = true then 1 else 0 := by
    cases r.flag <;> rfl
  exact (toNat_append_eq_add _ r.err).trans (by rw [hflag])

/-- A successful response has no error code, so only the length of its data is limited. -/
theorem responsesWf_respond (hs : s.ResponsesWf) (flag : Bool) {data : List Word}
    (hdata : data.length ∈ [0, 1, 8, 16, 17, 24]) : (s.respond flag data).ResponsesWf := by
  intro r hr
  obtain hr | rfl := List.mem_append.1 hr |>.imp_right List.mem_singleton.1
  · exact hs r hr
  · exact ⟨Nat.zero_le _, fun h => absurd rfl h, hdata⟩

theorem Err.code_le (e : Err) : e.code ≤ 7 := by
  cases e <;> simp [Err.code]

theorem responsesWf_raise (hs : s.ResponsesWf) (e : Err) : (s.raise e).ResponsesWf := by
  intro r hr
  rw [State.raise_responses] at hr
  obtain hr | rfl := List.mem_append.1 hr |>.imp_right List.mem_singleton.1
  · exact hs r hr
  · exact ⟨(Nat.mod_le _ _).trans e.code_le, fun _ => ⟨rfl, rfl⟩, by simp⟩

/-! ### Every response is as the rules allow it (rules R90, R91, R231) -/

theorem curveWords_length (cv : Curve) : (curveWords cv).length = 24 := by simp [curveWords]

theorem pointWords_length (pt : Pt) : (pointWords pt).length = 17 := by
  cases pt <;> simp [pointWords, Config.NW]

/-- A command that returns no data. -/
theorem responsesWf_done (hs : s.ResponsesWf) (flag : Bool) : (s.respond flag []).ResponsesWf :=
  responsesWf_respond hs flag (by simp)

theorem responsesWf_words (hs : s.ResponsesWf) (v : WInt) :
    (s.respond false (words v)).ResponsesWf :=
  responsesWf_respond hs false (by simp)

theorem responsesWf_curveWords (hs : s.ResponsesWf) (cv : Curve) :
    (s.respond false (curveWords cv)).ResponsesWf :=
  responsesWf_respond hs false (by simp [curveWords_length])

/-- What a command ends in has well-formed responses. -/
def WellAnswered (o : Host.Outcome State Fault Refusal) : Prop :=
  ∀ t, o = .next t → t.ResponsesWf

theorem wellAnswered_complete (hs : s.ResponsesWf) {r : Except Err State}
    (h : ∀ t, r = .ok t → t.ResponsesWf) : WellAnswered (complete s r) := by
  cases r with
  | ok t =>
    rintro _ ⟨⟩
    exact h t rfl
  | error e =>
    rintro _ ⟨⟩
    exact responsesWf_raise hs e

theorem elemBinary_answers (hs : s.ResponsesWf) (op : Elem → Elem → Elem) (d a b : ElemSel) :
    ∀ t, elemBinary op d a b s = .ok t → t.ResponsesWf :=
  ok_bind fun _ _ => ok_bind fun _ _ => ok_bind fun _ _ => ok_pure (responsesWf_done hs _)

theorem elemUnary_answers (hs : s.ResponsesWf) (op : Elem → Elem) (d a : ElemSel) :
    ∀ t, elemUnary op d a s = .ok t → t.ResponsesWf :=
  ok_bind fun _ _ => ok_pure (responsesWf_done hs _)

/-- Each command that succeeds returns no data, or the words of values, of a curve or of a point;
each arm follows the lines of the command's meaning. A register that is written holds no
response. -/
theorem exec_wellAnswered (i : Instr) (hs : s.ResponsesWf) : WellAnswered (exec i s) := by
  cases i with
  | nop => exact wellAnswered_complete hs (ok_pure (responsesWf_done hs _))
  | rdst sel =>
    refine wellAnswered_complete hs (ok_pure (responsesWf_respond hs false ?_))
    cases sel <;> simp
  | clrst => exact wellAnswered_complete hs (ok_pure (responsesWf_done (s := s.clearSticky) hs _))
  | mld d v =>
    exact wellAnswered_complete hs <| ok_bind fun _ _ => ok_bind fun _ _ =>
      ok_pure (responsesWf_done hs _)
  | mst a => exact wellAnswered_complete hs (ok_bind fun v _ => ok_pure (responsesWf_words hs v))
  | fld d a v =>
    exact wellAnswered_complete hs <| ok_bind fun _ _ => ok_pure (responsesWf_done hs _)
  | fmov d a => exact wellAnswered_complete hs (elemUnary_answers hs _ d a)
  | fst a part =>
    refine wellAnswered_complete hs (ok_bind fun x _ => ok_pure (responsesWf_respond hs false ?_))
    cases part <;> simp
  | fadd d a b => exact wellAnswered_complete hs (elemBinary_answers hs _ d a b)
  | fsub d a b => exact wellAnswered_complete hs (elemBinary_answers hs _ d a b)
  | fmul d a b => exact wellAnswered_complete hs (elemBinary_answers hs _ d a b)
  | fmuli d a v => exact wellAnswered_complete hs (elemUnary_answers hs _ d a)
  | fdiv d a b => exact wellAnswered_complete hs (elemBinary_answers hs _ d a b)
  | finv d a => exact wellAnswered_complete hs (elemUnary_answers hs _ d a)
  | fpow d a neg v => exact wellAnswered_complete hs (elemUnary_answers hs _ d a)
  | fsqrt d a form =>
    exact wellAnswered_complete hs <| ok_bind fun _ _ => ok_bind fun _ _ =>
      ok_pure (responsesWf_done hs _)
  | fisz a => exact wellAnswered_complete hs (ok_bind fun _ _ => ok_pure (responsesWf_done hs _))
  | feq a b =>
    exact wellAnswered_complete hs <| ok_bind fun _ _ => ok_bind fun _ _ =>
      ok_pure (responsesWf_done hs _)
  | cmk d a b =>
    exact wellAnswered_complete hs <| ok_bind fun _ _ => ok_bind fun _ _ => ok_bind fun _ _ =>
      ok_bind fun _ _ => ok_pure (responsesWf_done hs _)
  | cst a =>
    exact wellAnswered_complete hs (ok_bind fun cv _ => ok_pure (responsesWf_curveWords hs cv))
  | pmk d x y c =>
    exact wellAnswered_complete hs <| ok_bind fun _ _ => ok_bind fun _ _ => ok_bind fun _ _ =>
      ok_bind fun _ _ => ok_bind fun _ _ => ok_bind fun _ _ => ok_pure (responsesWf_done hs _)
  | pinf d c =>
    exact wellAnswered_complete hs <| ok_bind fun _ _ => ok_bind fun _ _ =>
      ok_pure (responsesWf_done hs _)
  | pmov d a =>
    exact wellAnswered_complete hs <| ok_bind fun _ _ => ok_bind fun _ _ =>
      ok_pure (responsesWf_done hs _)
  | pst a part =>
    refine wellAnswered_complete hs (ok_bind fun u _ => ok_pure (responsesWf_respond hs false ?_))
    cases part <;> simp [pointWords_length, curveWords_length]
  | padd d a b =>
    exact wellAnswered_complete hs <| ok_bind fun _ _ => ok_bind fun _ _ => ok_bind fun _ _ =>
      ok_bind fun _ _ => ok_pure (responsesWf_done hs _)
  | pdbl d a =>
    exact wellAnswered_complete hs <| ok_bind fun _ _ => ok_bind fun _ _ => ok_bind fun _ _ =>
      ok_pure (responsesWf_done hs _)
  | pmul d a v =>
    exact wellAnswered_complete hs <| ok_bind fun _ _ => ok_bind fun _ _ => ok_bind fun _ _ =>
      ok_pure (responsesWf_done hs _)
  | pmuln d a v =>
    exact wellAnswered_complete hs <| ok_bind fun _ _ => ok_bind fun _ _ => ok_bind fun _ _ =>
      ok_bind fun _ _ => ok_pure (responsesWf_done hs _)
  | peq a b =>
    exact wellAnswered_complete hs <| ok_bind fun _ _ => ok_bind fun _ _ =>
      ok_pure (responsesWf_done hs _)

/-- Settles O15, by what the engine finds at the port: waiting and reset give no response, a legal
command gives one the rules allow by `exec_wellAnswered`, an illegal one takes an error. -/
theorem stepKeepsResponsesWellFormed : Obligations.StepKeepsResponsesWellFormed := by
  intro s t hs
  cases hf : fetch s.port with
  | waiting =>
    rw [step_of_waiting hf]
    rintro ⟨⟩
    exact hs
  | reset rest =>
    rw [step_of_reset hf]
    rintro ⟨⟩
    exact hs
  | command ws rest =>
    cases hd : decode ws with
    | ok i =>
      rw [step_of_legal hf hd]
      exact exec_wellAnswered i (s := { s with port := rest }) hs t
    | error e =>
      rw [step_of_illegal hf hd]
      rintro ⟨⟩
      exact responsesWf_raise (s := { s with port := rest }) hs _

end Sys2Proof.Machine
end

section
/-!
PROOFS. The results of the field functions of 40_field.md (rules R116 to R123) as exact integers
below the modulus, and the arithmetic of a zero operand (rules R128, R129) and of Fermat's inverse
(rule R122).
-/

namespace Sys2Proof.Machine

variable {x y : Elem}

/-! ### Reduced values, as a register holds them (00_scope.md rule R6) -/

theorem toNat_toWInt_tmod_natCast (n : Nat) {p : WInt} (hp : 2 ≤ p.toNat) :
    (toWInt (tmod (n : Int) p.toNat)).toNat = n % p.toNat := by
  rw [toWInt_tmod _ _ hp, tmod_natCast]

theorem toNat_toWInt_modexp (b e : Nat) {p : WInt} (hp : 2 ≤ p.toNat) :
    (toWInt (modexp b e p.toNat)).toNat = b ^ e % p.toNat := by
  rw [toWInt_toNat_of_lt p (modexp_lt b e hp), modexp_eq]

theorem Elem.eq_mk_of_toNat {v p : WInt} (hp : x.prime = p) (hv : x.val.toNat = v.toNat) :
    x = ⟨v, p⟩ := by
  obtain ⟨v', p'⟩ := x
  obtain rfl : p' = p := hp
  obtain rfl : v' = v := BitVec.eq_of_toNat_eq hv
  rfl

/-! ### The field functions -/

theorem elemAdd_toNat (hx : x.Wf) (y : Elem) :
    (elemAdd x y).val.toNat = (x.val.toNat + y.val.toNat) % x.prime.toNat :=
  toNat_toWInt_tmod_natCast (x.val.toNat + y.val.toNat) hx.1

/-- The difference may be negative; what is written is its true modulo. -/
theorem elemSub_toNat (hx : x.Wf) (y : Elem) :
    ((elemSub x y).val.toNat : Int) = ((x.val.toNat : Int) - y.val.toNat) % x.prime.toNat := by
  have hp : x.prime.toNat ≠ 0 := by have := hx.1; omega
  rw [elemSub, toWInt_tmod _ _ hx.1, tmod_cast _ hp]

theorem elemMul_toNat (hx : x.Wf) (y : Elem) :
    (elemMul x y).val.toNat = x.val.toNat * y.val.toNat % x.prime.toNat :=
  toNat_toWInt_tmod_natCast (x.val.toNat * y.val.toNat) hx.1

theorem elemMulInt_toNat (hx : x.Wf) (k : Nat) :
    (elemMulInt x k).val.toNat = x.val.toNat * k % x.prime.toNat :=
  toNat_toWInt_tmod_natCast (x.val.toNat * k) hx.1

/-- The exponent is reduced modulo `p - 1`, whatever its sign (rule R120). -/
theorem elemPow_toNat (hx : x.Wf) (e : Int) :
    (elemPow x e).val.toNat =
      x.val.toNat ^ (e % ((x.prime.toNat : Int) - 1)).toNat % x.prime.toNat := by
  have hpred : ((x.prime.toNat - 1 : Nat) : Int) = (x.prime.toNat : Int) - 1 := by
    have := hx.1
    omega
  rw [elemPow, toNat_toWInt_modexp _ _ hx.1, tmod, hpred]

theorem elemDiv_toNat (hx : x.Wf) (y : Elem) :
    (elemDiv x y).val.toNat =
      x.val.toNat * y.val.toNat ^ (x.prime.toNat - 2) % x.prime.toNat := by
  have hlt := Nat.mod_lt (x.val.toNat * y.val.toNat ^ (x.prime.toNat - 2))
    (Nat.zero_lt_of_lt hx.2)
  rw [elemDiv, fdivVal_eq, toWInt_toNat_of_lt x.prime hlt]

theorem elemInv_toNat (hx : x.Wf) :
    (elemInv x).val.toNat = x.val.toNat ^ (x.prime.toNat - 2) % x.prime.toNat :=
  toNat_toWInt_modexp _ _ hx.1

/-! ### The square root (rule R123) -/

theorem sqrtRaw_eq (x : Elem) :
    sqrtRaw x = x.val.toNat ^ ((x.prime.toNat + 1) / 4) % x.prime.toNat :=
  modexp_eq _ _ _

theorem sqrtRaw_lt (hx : x.Wf) : sqrtRaw x < x.prime.toNat := modexp_lt _ _ hx.1

theorem selectParity_eq (want : Nat) {beta p : Nat} (h : beta ≤ p) :
    selectParity want beta p = if beta % 2 = want then beta else (p - beta) % p := by
  rw [selectParity, ← Nat.cast_sub h, tmod_natCast]

theorem elemSqrt_raw_toNat (hx : x.Wf) : (elemSqrt .raw x).val.toNat = sqrtRaw x :=
  toWInt_toNat_of_lt x.prime (sqrtRaw_lt hx)

/-- The stored candidate of the wanted parity, as both the even and the odd form write it. -/
theorem toNat_toWInt_selectParity (hx : x.Wf) (want : Nat) :
    (toWInt (selectParity want (sqrtRaw x) x.prime.toNat)).toNat =
      if sqrtRaw x % 2 = want then sqrtRaw x else (x.prime.toNat - sqrtRaw x) % x.prime.toNat := by
  rw [toWInt_toNat_of_lt x.prime (selectParity_lt (sqrtRaw_lt hx)),
    selectParity_eq want (sqrtRaw_lt hx).le]

theorem elemSqrt_prime (form : RootForm) (x : Elem) : (elemSqrt form x).prime = x.prime := by
  cases form <;> rfl

theorem isRoot_eq (x : Elem) :
    isRoot x = decide (sqrtRaw x * sqrtRaw x % x.prime.toNat = x.val.toNat) := by
  have h := tmod_natCast (sqrtRaw x * sqrtRaw x) x.prime.toNat
  rw [Nat.cast_mul] at h
  rw [isRoot, h, beq_eq_decide]

theorem sqrtDomain_iff (x : Elem) : sqrtDomain x = true ↔ x.prime.toNat % 4 = 3 :=
  beq_iff_eq

/-! ### Tests (rules R124, R125) -/

theorem isZero_eq (x : Elem) : isZero x = decide (x.val.toNat = 0) := by
  rw [isZero, beq_eq_decide, decide_eq_decide]
  exact (BitVec.toNat_inj (y := 0#256)).symm

theorem elemEq_eq (x y : Elem) : elemEq x y = decide (x.val = y.val ∧ x.prime = y.prime) := by
  rw [elemEq, beq_eq_decide, beq_eq_decide, Bool.decide_and]

/-! ### Fermat's inverse and zero operands (rules R122, R128, R129) -/

/-- By Fermat's theorem `a^(p-2)` inverts `a` modulo a prime `p`. -/
theorem mul_pow_sub_two_mod {a p : Nat} (hp : p.Prime) (ha : a ≠ 0) (hlt : a < p) :
    a * (a ^ (p - 2) % p) % p = 1 := by
  have htwo := hp.two_le
  have hfermat : a ^ (p - 1) ≡ 1 [MOD p] :=
    Nat.totient_prime hp ▸ Nat.ModEq.pow_totient (Nat.coprime_of_lt_prime ha hlt hp).symm
  calc a * (a ^ (p - 2) % p) % p
      = a ^ (p - 2 + 1) % p := by rw [Nat.mul_mod_mod, pow_succ']
    _ = a ^ (p - 1) % p := by congr 2; omega
    _ = 1 % p := hfermat
    _ = 1 := Nat.mod_eq_of_lt htwo

/-- The power with exponent 0 is 1 for the base 0 too (00_scope.md rule R9), which `p = 2` meets. -/
theorem zero_pow_sub_two {p : Nat} (hp : 2 ≤ p) : 0 ^ (p - 2) = if p = 2 then 1 else 0 := by
  split
  next h => rw [h, Nat.sub_self, pow_zero]
  next h => exact zero_pow (by omega)

theorem elemDiv_of_zero (hx : x.Wf) (hy : y.val = 0#256) :
    elemDiv x y = ⟨if x.prime.toNat = 2 then x.val else 0#256, x.prime⟩ := by
  refine Elem.eq_mk_of_toNat rfl ?_
  rw [elemDiv_toNat hx, hy, BitVec.toNat_zero, zero_pow_sub_two hx.1]
  split
  · rw [Nat.mul_one, Nat.mod_eq_of_lt hx.2]
  · rw [Nat.mul_zero, Nat.zero_mod, BitVec.toNat_zero]

theorem elemInv_of_zero (hx : x.Wf) (h0 : x.val = 0#256) :
    elemInv x = ⟨if x.prime.toNat = 2 then 1#256 else 0#256, x.prime⟩ := by
  refine Elem.eq_mk_of_toNat rfl ?_
  rw [elemInv_toNat hx, h0, BitVec.toNat_zero, zero_pow_sub_two hx.1]
  split
  · exact Nat.mod_eq_of_lt hx.1
  · exact Nat.zero_mod _

/-- An exponent that is a multiple of `p - 1` is reduced to 0, and every base to the 0 is 1. -/
theorem elemPow_of_dvd (hx : x.Wf) {e : Int} (he : (x.prime.toNat : Int) - 1 ∣ e) :
    elemPow x e = ⟨1#256, x.prime⟩ := by
  refine Elem.eq_mk_of_toNat rfl ?_
  rw [elemPow_toNat hx, Int.emod_eq_zero_of_dvd he, Int.toNat_zero, pow_zero]
  exact Nat.mod_eq_of_lt hx.1

theorem dvd_exponent {q : Int} (neg : Bool) {payload : WInt} (h : q ∣ payload.toNat) :
    q ∣ exponent neg payload := by
  cases neg with
  | false => exact h
  | true => exact h.neg_right

end Sys2Proof.Machine
end

section
/-!
PROOFS. The commands of 40_field.md: what each leaves and answers on operands that it accepts, and
the domain errors BadModulus (rule R111) and SqrtDomain (rule R123).
-/

namespace Sys2Proof.Machine

variable {s : State} {d a b : ElemSel} {x y : Elem}

/-! ### How the element commands end (rule R110) -/

theorem complete_elemBinary {op : Elem → Elem → Elem} (hx : s.f[a] = some x)
    (hy : s.f[b] = some y) (hp : x.prime = y.prime) :
    complete s (elemBinary op d a b s) = .next ((s.writeF d (op x y)).respond false []) := by
  rw [elemBinary_of_some hx hy hp, complete_ok]

theorem complete_elemUnary {op : Elem → Elem} (hx : s.f[a] = some x) :
    complete s (elemUnary op d a s) = .next ((s.writeF d (op x)).respond false []) := by
  rw [elemUnary_of_some hx, complete_ok]

/-- A readable source is handed on to the rest of the command. -/
theorem complete_readF (hx : s.f[a] = some x) (k : Elem → Except Err State) :
    complete s (s.readF a >>= k) = complete s (k x) := by
  rw [readF_of_some hx, Except.bind_ok]

/-- Within its domain FSQRT writes the root and ends as a test does (rule R123). -/
theorem execFsqrt_of_domain {form : RootForm} (hx : s.f[a] = some x)
    (hdom : x.prime.toNat % 4 = 3) :
    execFsqrt d a form s = .next ((s.writeF d (elemSqrt form x)).respondTest (isRoot x)) := by
  rw [execFsqrt, complete_readF hx, (sqrtDomain_iff x).2 hdom, check_true]
  rfl

theorem execFsqrt_of_not_domain {form : RootForm} (hx : s.f[a] = some x)
    (hdom : x.prime.toNat % 4 ≠ 3) : execFsqrt d a form s = .next (s.raise .sqrtDomain) := by
  have hfalse : sqrtDomain x = false := Bool.eq_false_iff.2 (mt (sqrtDomain_iff x).1 hdom)
  rw [execFsqrt, complete_readF hx, hfalse, check_false]
  rfl

theorem execFisz_of_some (hx : s.f[a] = some x) :
    execFisz a s = .next (s.respondTest (isZero x)) :=
  complete_readF hx _

theorem execFeq_of_some (hx : s.f[a] = some x) (hy : s.f[b] = some y) :
    execFeq a b s = .next (s.respondTest (elemEq x y)) :=
  (complete_readF hx _).trans (complete_readF hy _)

/-! ### How the modulus commands and the loads and stores end (rules R111 to R115) -/

theorem execMld_of_two_le {i : Fin 2} {payload : WInt} (h : 2 ≤ payload.toNat) :
    execMld (.m i) payload s = .next ((s.writeM i payload).respond false []) := by
  rw [execMld, modDest_m, Except.bind_ok, decide_eq_true h, check_true]
  rfl

theorem execMld_of_lt_two {i : Fin 2} {payload : WInt} (h : payload.toNat < 2) :
    execMld (.m i) payload s = .next (s.raise .badModulus) := by
  rw [execMld, modDest_m, Except.bind_ok, decide_eq_false (Nat.not_le.2 h), check_false]
  rfl

theorem execMst_of_holds {m : ModSel} {v : WInt} (h : s.HoldsM m v) :
    execMst m s = .next (s.respond false (words v)) := by
  rw [execMst, readM_of_holds h]
  rfl

theorem execFld_of_holds {m : ModSel} {v : WInt} (h : s.HoldsM m v) (payload : WInt) :
    execFld d m payload s =
      .next ((s.writeF d ⟨toWInt (tmod payload.toNat v.toNat), v⟩).respond false []) := by
  rw [execFld, readM_of_holds h]
  rfl

/-! ### Moduli and the transfer of elements -/

/-- Settles O23: MLD tests its payload against 2 and nothing else. -/
theorem mldLoadsModulus : Obligations.MldLoadsModulus :=
  fun _ _ _ => ⟨execMld_of_two_le, execMld_of_lt_two⟩

/-- Settles O24: MST answers the words of what its selector holds, and `SP` has the digits of
10_state.md rule R37. -/
theorem mstReturnsModulus : Obligations.MstReturnsModulus := by
  have hsp : BitVec.ofNat 256 (2 ^ 256 - 2 ^ 32 - 977) = Config.sp := by decide
  refine ⟨fun _ _ _ h => execMst_of_holds h, fun s => ?_⟩
  rw [hsp]
  exact execMst_of_holds (m := .sp) rfl

/-- Settles O25: FLD writes the payload reduced, which the register holds exactly. -/
theorem fldReducesPayload : Obligations.FldReducesPayload :=
  fun _ _ _ payload _ hm htwo =>
    ⟨_, rfl, toNat_toWInt_tmod_natCast payload.toNat htwo, execFld_of_holds hm payload⟩

/-- Settles O26: FMOV is the template of one source with nothing computed, FST answers one half of
what it reads. -/
theorem elementTransfers : Obligations.ElementTransfers :=
  fun _ _ _ _ hx => ⟨complete_elemUnary hx, complete_readF hx _, complete_readF hx _⟩

/-! ### Field arithmetic -/

/-- Settles O27, by the sum that FADD forms before it reduces (`elemAdd_toNat`). -/
theorem faddAddsModuloThePrime : Obligations.FaddAddsModuloThePrime :=
  fun _ _ _ x y _ hx hy hwf hp =>
    ⟨elemAdd x y, rfl, elemAdd_toNat hwf y, complete_elemBinary hx hy hp⟩

/-- Settles O28, by the true modulo of the difference (`elemSub_toNat`). -/
theorem fsubSubtractsModuloThePrime : Obligations.FsubSubtractsModuloThePrime :=
  fun _ _ _ x y _ hx hy hwf hp =>
    ⟨elemSub x y, rfl, elemSub_toNat hwf y, complete_elemBinary hx hy hp⟩

/-- Settles O29, by the exact products (`elemMul_toNat`, `elemMulInt_toNat`). -/
theorem fmulMultipliesModuloThePrime : Obligations.FmulMultipliesModuloThePrime :=
  ⟨fun _ _ _ x y _ hx hy hwf hp =>
      ⟨elemMul x y, rfl, elemMul_toNat hwf y, complete_elemBinary hx hy hp⟩,
    fun _ _ payload x _ hx hwf =>
      ⟨elemMulInt x payload.toNat, rfl, elemMulInt_toNat hwf _, complete_elemUnary hx⟩⟩

/-- Settles O30: the signed exponent is `exponent`, which `elemPow_toNat` reduces modulo `p - 1`. -/
theorem fpowRaisesToTheReducedExponent : Obligations.FpowRaisesToTheReducedExponent := by
  rintro d a neg payload x s _ hx hwf rfl
  exact ⟨elemPow x (exponent neg payload), rfl, elemPow_toNat hwf _, complete_elemUnary hx⟩

/-- Settles O31: neither command tests its divisor (`elemDiv_toNat`, `elemInv_toNat`). -/
theorem fdivAndFinvByFermat : Obligations.FdivAndFinvByFermat :=
  ⟨fun _ _ _ x y _ hx hy hwf hp =>
      ⟨elemDiv x y, rfl, elemDiv_toNat hwf y, complete_elemBinary hx hy hp⟩,
    fun _ _ x _ hx hwf => ⟨elemInv x, rfl, elemInv_toNat hwf, complete_elemUnary hx⟩⟩

/-- Settles O32: FINV writes `a^(p-2)` modulo `p`, which inverts `a` by Fermat's theorem
(`mul_pow_sub_two_mod`). -/
theorem finvIsAnInverseForPrimes : Obligations.FinvIsAnInverseForPrimes := by
  intro d a x s hx hwf hprime hne
  have h0 : x.val.toNat ≠ 0 := fun h => hne (BitVec.eq_of_toNat_eq h)
  refine ⟨elemInv x, rfl, (elemInv_wf hwf).2, ?_, complete_elemUnary hx⟩
  rw [elemInv_toNat hwf]
  exact mul_pow_sub_two_mod hprime h0 hwf.2

/-- Settles O33: the power of 0 that FDIV and FINV take is 1 for `p = 2` and 0 above
(`zero_pow_sub_two`), and FPOW takes the power with exponent 0, which is 1 (`elemPow_of_dvd`). -/
theorem zeroOperandsAreNotErrors : Obligations.ZeroOperandsAreNotErrors := by
  refine ⟨fun d a b x y s hx hy hwf hp h0 => ?_, fun d a x s hx hwf h0 => ?_,
    fun d a neg payload x s hx hwf _ hdvd => ?_⟩
  · rw [← elemDiv_of_zero hwf h0]
    exact complete_elemBinary hx hy hp
  · rw [← elemInv_of_zero hwf h0]
    exact complete_elemUnary hx
  · have hdvd' : (x.prime.toNat : Int) - 1 ∣ payload.toNat := by
      rw [← Nat.cast_pred (Nat.zero_lt_of_lt hwf.2)]
      exact Int.natCast_dvd_natCast.2 hdvd
    rw [← elemPow_of_dvd hwf (dvd_exponent neg hdvd')]
    exact complete_elemUnary hx

/-- Settles O34: the candidate is `sqrtRaw`, and each form writes it or its complement. -/
theorem fsqrtWritesTheRootCandidate : Obligations.FsqrtWritesTheRootCandidate := by
  rintro d a form x s _ beta root hx hwf rfl hdom hbeta hroot
  obtain rfl : sqrtRaw x = beta := (sqrtRaw_eq x).trans hbeta.symm
  obtain rfl : isRoot x = root := (isRoot_eq x).trans hroot.symm
  refine ⟨elemSqrt form x, elemSqrt_prime form x, ?_, execFsqrt_of_domain hx hdom⟩
  cases form with
  | raw => exact elemSqrt_raw_toNat hwf
  | even => exact toNat_toWInt_selectParity hwf 0
  | odd => exact toNat_toWInt_selectParity hwf 1

/-- Settles O35: the modulus is tested before anything is written. -/
theorem fsqrtRefusesOtherModuli : Obligations.FsqrtRefusesOtherModuli :=
  fun _ _ _ _ _ hx hdom => execFsqrt_of_not_domain hx hdom

/-- Settles O36: both tests answer what they write to `T`, and are the comparisons of the values. -/
theorem elementTestsWriteT : Obligations.ElementTestsWriteT := by
  refine ⟨fun a x s hx => ?_, fun a b x y s hx hy => ?_⟩
  · rw [← isZero_eq]
    exact execFisz_of_some hx
  · rw [← elemEq_eq]
    exact execFeq_of_some hx hy

end Sys2Proof.Machine
end

section
/-!
PROOFS. The integers of point addition (41_curve_point.md rule R170): one equation for each of its
five cases, the slopes as exact integers, and the third point with its test (rule R173).
-/

namespace Sys2Proof.Machine

/-! ### The cases of rule R170 -/

section Cases

variable {cv : Curve} {x x1 y1 x2 y2 : WInt}

/-- Points of one curve pass the comparison that comes first. -/
theorem curveEq_self (cv : Curve) : curveEq cv cv = true := (curveEq_iff cv cv).2 rfl

/-- Case 1 of rule R170. -/
theorem pointAdd_infinity_left {u v : CPoint} (hcv : u.cv = v.cv) (hu : u.pt = .infinity) :
    pointAdd u v = .ok v := by
  simp [pointAdd, hcv, hu, curveEq_self]

/-- Case 1, the other operand: where both are the identity they are one value, the curves being
equal. -/
theorem pointAdd_infinity_right {u v : CPoint} (hcv : u.cv = v.cv) (hv : v.pt = .infinity) :
    pointAdd u v = .ok u := by
  obtain ⟨pt, cv⟩ := u
  obtain ⟨pt', cv'⟩ := v
  obtain rfl : cv = cv' := hcv
  obtain rfl : pt' = .infinity := hv
  cases pt with
  | infinity => exact pointAdd_infinity_left rfl rfl
  | affine x y => simp [pointAdd, curveEq_self]

/-- Case 2. -/
theorem pointAdd_chord (hx : x1 ≠ x2) :
    pointAdd ⟨.affine x1 y1, cv⟩ ⟨.affine x2 y2, cv⟩ =
      thirdPoint (chordSlope x1.toNat y1.toNat x2.toNat y2.toNat cv.p.toNat)
        x1.toNat y1.toNat x2.toNat cv := by
  simp [pointAdd, curveEq_self, hx]

/-- Cases 3 and 4: a vertical chord, a vertical tangent. -/
theorem pointAdd_vertical (hy : y1 ≠ y2 ∨ y1 = 0#256) :
    pointAdd ⟨.affine x y1, cv⟩ ⟨.affine x y2, cv⟩ = .ok ⟨.infinity, cv⟩ := by
  by_cases h : y1 = y2
  · simp [pointAdd, curveEq_self, hy.resolve_left (not_not_intro h)]
  · simp [pointAdd, curveEq_self, h]

/-- Case 5. -/
theorem pointAdd_tangent (hy : y1 ≠ 0#256) :
    pointAdd ⟨.affine x1 y1, cv⟩ ⟨.affine x1 y1, cv⟩ =
      thirdPoint (tangentSlope x1.toNat y1.toNat cv.a.toNat cv.p.toNat)
        x1.toNat y1.toNat x1.toNat cv := by
  simp [pointAdd, curveEq_self, hy]

end Cases

/-! ### Slopes and the third point on exact integers -/

section Integers

/-- The division that a slope is, on exact integers (40_field.md rule R121). -/
theorem fdivVal_tmod_cast (n d : Int) {p : Nat} (hp : p ≠ 0) :
    (fdivVal (tmod n p) (tmod d p) p : Int) = n % p * (d % p) ^ (p - 2) % p := by
  rw [fdivVal_eq]
  push_cast
  rw [tmod_cast n hp, tmod_cast d hp]

theorem chordSlope_cast (x1 y1 x2 y2 : Nat) {p : Nat} (hp : p ≠ 0) :
    (chordSlope x1 y1 x2 y2 p : Int) =
      ((y2 : Int) - y1) % p * (((x2 : Int) - x1) % p) ^ (p - 2) % p :=
  fdivVal_tmod_cast _ _ hp

theorem tangentSlope_cast (x1 y1 a : Nat) {p : Nat} (hp : p ≠ 0) :
    (tangentSlope x1 y1 a p : Int) =
      (3 * (x1 : Int) * x1 + a) % p * ((2 * (y1 : Int)) % p) ^ (p - 2) % p :=
  fdivVal_tmod_cast _ _ hp

theorem chordSlope_lt (x1 y1 x2 y2 : Nat) {p : Nat} (hp : 0 < p) :
    chordSlope x1 y1 x2 y2 p < p := by
  rw [chordSlope, fdivVal]
  exact tmod_lt _ hp

/-- `q` is what PointAdd answers when `(x, y)` is its third point (rule R173). -/
def Tested (cv : Curve) (x y : WInt) (q : Except Err CPoint) : Prop :=
  (cv.Satisfied x.toNat y.toNat → q = .ok ⟨.affine x y, cv⟩) ∧
    (¬cv.Satisfied x.toNat y.toNat → q = .error (.pointNotOnCurve x y))

/-- The third point has the coordinates of rule R170, and is tested as rule R173 says. -/
theorem thirdPoint_tested (sl x1 y1 x2 : Nat) {cv : Curve} (hp : 2 ≤ cv.p.toNat) :
    ∃ x y : WInt, (x.toNat : Int) = ((sl : Int) * sl - x1 - x2) % cv.p.toNat ∧
      (y.toNat : Int) = ((sl : Int) * (x1 - x.toNat) - y1) % cv.p.toNat ∧
      Tested cv x y (thirdPoint sl x1 y1 x2 cv) := by
  have hp0 : cv.p.toNat ≠ 0 := by omega
  have hx := toWInt_tmod ((sl : Int) * sl - x1 - x2) cv.p hp
  refine ⟨_, _, ?_, ?_, fun h => if_pos ((onCurve_iff _ _ _).2 h),
    fun h => if_neg (mt (onCurve_iff _ _ _).1 h)⟩
  · rw [hx, tmod_cast _ hp0]
  · rw [hx, toWInt_tmod _ _ hp, tmod_cast _ hp0]

end Integers

end Sys2Proof.Machine
end

section
/-!
PROOFS. Point addition over the field of a prime modulus: the chord and the tangent have the slopes
of the Weierstrass curve, so a third point satisfies the equation, on a singular curve too
(41_curve_point.md rule R173), and on points of the group the cases of rule R170 are its law.
-/

namespace Sys2Proof.Machine

open WeierstrassCurve.Affine

/-! ### Residues -/

/-- Reduced integers are equal when their residues are. -/
theorem tmod_eq_of_zmod_eq {v w : Int} {p : Nat} (h : (v : ZMod p) = w) : tmod v p = tmod w p := by
  rw [tmod, (ZMod.intCast_eq_intCast_iff' v w p).1 h, tmod]

/-- A register value given by a true modulo has the residue of the integer. -/
theorem zmod_of_cast_eq_emod {n p : Nat} {v : Int} (h : (n : Int) = v % p) :
    (n : ZMod p) = (v : ZMod p) := by
  have hcast := congrArg (Int.cast (R := ZMod p)) h
  rwa [Int.cast_natCast, ZMod.intCast_mod] at hcast

/-! ### The formulas of the short curve -/

variable {cv : Curve}

theorem weierstrass_negY (cv : Curve) (x y : ZMod cv.p.toNat) :
    (weierstrass cv).negY x y = -y := by
  simp [negY, weierstrass]

theorem weierstrass_addX (cv : Curve) (x1 x2 sl : ZMod cv.p.toNat) :
    (weierstrass cv).addX x1 x2 sl = sl * sl - x1 - x2 := by
  simp [addX, weierstrass, pow_two]

theorem weierstrass_addY (cv : Curve) (x1 x2 y1 sl : ZMod cv.p.toNat) :
    (weierstrass cv).addY x1 x2 y1 sl = sl * (x1 - (sl * sl - x1 - x2)) - y1 := by
  rw [addY, weierstrass_negY, negAddY, weierstrass_addX]
  ring

/-- `u` is the affine point of `cv` with the residues `X` and `Y` as coordinates. -/
def HasCoords (cv : Curve) (X Y : ZMod cv.p.toNat) (u : CPoint) : Prop :=
  ∃ x y : WInt, u = ⟨.affine x y, cv⟩ ∧ x.toNat < cv.p.toNat ∧ y.toNat < cv.p.toNat ∧
    (x.toNat : ZMod cv.p.toNat) = X ∧ (y.toNat : ZMod cv.p.toNat) = Y

/-- A register stands for an affine point of the group exactly when it has its coordinates. -/
theorem represents_some_iff {X Y : ZMod cv.p.toNat} {h : (weierstrass cv).Nonsingular X Y}
    {u : CPoint} : Represents cv (.some X Y h) u ↔ HasCoords cv X Y u := by
  constructor
  · rintro ⟨hcv, x, y, hpt, hcoords⟩
    exact ⟨x, y, by rw [← hpt, ← hcv], hcoords⟩
  · rintro ⟨x, y, rfl, hcoords⟩
    exact ⟨rfl, x, y, rfl, hcoords⟩

theorem represents_zero_iff {u : CPoint} : Represents cv 0 u ↔ u = ⟨.infinity, cv⟩ := by
  constructor
  · rintro ⟨hcv, hpt⟩
    rw [← hcv, ← hpt]
  · rintro rfl
    exact ⟨rfl, rfl⟩

/-- A point that satisfies the invariant and is not the identity has coordinates that satisfy the
equation of its curve. -/
theorem hasCoords_of_wf {u : CPoint} (hcv : u.cv = cv) (hu : u.Wf) (hinf : u.pt ≠ .infinity) :
    ∃ X Y, HasCoords cv X Y u ∧ (weierstrass cv).Equation X Y := by
  obtain ⟨pt, cv'⟩ := u
  obtain rfl : cv' = cv := hcv
  cases pt with
  | infinity => exact absurd rfl hinf
  | affine x y =>
    obtain ⟨hx, hy, hxy⟩ := (liesOn_affine _ _ _).1 hu.2
    exact ⟨_, _, ⟨x, y, rfl, hx, hy, rfl, rfl⟩, (satisfied_iff_equation _ _ _).1 hxy⟩

/-- The third point on a line may be computed from either of the two points it goes through. -/
theorem thirdPoint_comm {sl x1 y1 x2 y2 : Nat}
    (hsl : (sl : ZMod cv.p.toNat) * (x2 - x1) = y2 - y1) :
    thirdPoint sl x1 y1 x2 cv = thirdPoint sl x2 y2 x1 cv := by
  have hx3 : (sl : Int) * sl - x1 - x2 = sl * sl - x2 - x1 := by ring
  have hy3 (x3 : Nat) : tmod ((sl : Int) * (x1 - x3) - y1) cv.p.toNat =
      tmod (sl * (x2 - x3) - y2) cv.p.toNat := by
    apply tmod_eq_of_zmod_eq
    push_cast
    linear_combination -hsl
  simp only [thirdPoint, hx3, hy3]

section Prime

variable [Fact (Nat.Prime cv.p.toNat)]

/-- The slope of the chord is the secant's. -/
theorem chordSlope_zmod {x1 x2 : Nat} (y1 y2 : Nat) (hx : (x1 : ZMod cv.p.toNat) ≠ x2) :
    (chordSlope x1 y1 x2 y2 cv.p.toNat : ZMod cv.p.toNat) =
      (weierstrass cv).slope (x1 : ZMod cv.p.toNat) x2 y1 y2 := by
  have hd : (((x2 : Int) - x1 : Int) : ZMod cv.p.toNat) ≠ 0 := by
    push_cast
    exact sub_ne_zero.2 hx.symm
  rw [chordSlope, fdivVal_zmod _ _ hd, slope_of_X_ne hx, ← neg_div_neg_eq]
  push_cast
  rw [neg_sub, neg_sub]

/-- The slope of case 5 is the tangent's, where the tangent is not vertical. -/
theorem tangentSlope_zmod {x y : Nat} (hy : (y : ZMod cv.p.toNat) ≠ -y) :
    (tangentSlope x y cv.a.toNat cv.p.toNat : ZMod cv.p.toNat) =
      (weierstrass cv).slope (x : ZMod cv.p.toNat) x y y := by
  have htwo : (2 * y : ZMod cv.p.toNat) = y - -y := by ring
  have hd : ((2 * (y : Int) : Int) : ZMod cv.p.toNat) ≠ 0 := by
    push_cast
    rw [htwo]
    exact sub_ne_zero.2 hy
  rw [tangentSlope, fdivVal_zmod _ _ hd, slope_of_Y_ne rfl (by rwa [weierstrass_negY]),
    weierstrass_negY, ← htwo]
  congr 1
  · simp only [weierstrass]
    push_cast
    ring
  · push_cast
    rfl

/-- A third point whose slope is that of the line through two points of the curve passes the test
of rule R173, and has the coordinates of their sum. -/
theorem thirdPoint_of_slope {sl x1 y1 x2 : Nat} {X1 Y1 X2 Y2 : ZMod cv.p.toNat}
    (hx1 : (x1 : ZMod cv.p.toNat) = X1) (hy1 : (y1 : ZMod cv.p.toNat) = Y1)
    (hx2 : (x2 : ZMod cv.p.toNat) = X2)
    (hsl : (sl : ZMod cv.p.toNat) = (weierstrass cv).slope X1 X2 Y1 Y2)
    (h1 : (weierstrass cv).Equation X1 Y1) (h2 : (weierstrass cv).Equation X2 Y2)
    (hxy : ¬(X1 = X2 ∧ Y1 = (weierstrass cv).negY X2 Y2)) :
    ∃ q, thirdPoint sl x1 y1 x2 cv = .ok q ∧
      HasCoords cv ((weierstrass cv).addX X1 X2 ((weierstrass cv).slope X1 X2 Y1 Y2))
        ((weierstrass cv).addY X1 X2 Y1 ((weierstrass cv).slope X1 X2 Y1 Y2)) q := by
  have htwo := (Fact.out : Nat.Prime cv.p.toNat).two_le
  obtain ⟨x, y, hx, hy, hok, -⟩ := thirdPoint_tested sl x1 y1 x2 htwo
  have hlt {n : Nat} {v : Int} (h : (n : Int) = v % cv.p.toNat) : n < cv.p.toNat := by
    have hpos := Int.emod_lt_of_pos v (b := cv.p.toNat) (by omega)
    omega
  have hX : (x.toNat : ZMod cv.p.toNat) =
      (weierstrass cv).addX X1 X2 ((weierstrass cv).slope X1 X2 Y1 Y2) := by
    rw [zmod_of_cast_eq_emod hx, weierstrass_addX, ← hsl, ← hx1, ← hx2]
    push_cast
    rfl
  have hY : (y.toNat : ZMod cv.p.toNat) =
      (weierstrass cv).addY X1 X2 Y1 ((weierstrass cv).slope X1 X2 Y1 Y2) := by
    rw [zmod_of_cast_eq_emod hy, weierstrass_addY, ← weierstrass_addX, ← hX, ← hsl, ← hx1, ← hy1]
    push_cast
    rfl
  refine ⟨_, hok ((satisfied_iff_equation _ _ _).2 ?_), x, y, rfl, hlt hx, hlt hy, hX, hY⟩
  rw [hX, hY]
  exact equation_add h1 h2 hxy

/-- Points with opposite coordinates meet case 3 or 4 of rule R170: with equal `y` as well, `2 * y`
is 0, and so is `y`, the modulus being odd. -/
theorem pointAdd_of_opposite (h3 : 3 ≤ cv.p.toNat) {X1 Y1 X2 Y2 : ZMod cv.p.toNat} {u v : CPoint}
    (hu : HasCoords cv X1 Y1 u) (hv : HasCoords cv X2 Y2 v) (hX : X1 = X2)
    (hY : Y1 = (weierstrass cv).negY X2 Y2) : pointAdd u v = .ok ⟨.infinity, cv⟩ := by
  obtain ⟨x1, y1, rfl, hx1, hy1, rfl, rfl⟩ := hu
  obtain ⟨x2, y2, rfl, hx2, -, rfl, rfl⟩ := hv
  obtain rfl := eq_of_zmod_eq hx1 hx2 hX
  refine pointAdd_vertical (or_iff_not_imp_left.2 fun hne => ?_)
  obtain rfl := not_not.1 hne
  have hodd : (2 : ZMod cv.p.toNat) ≠ 0 := fun h =>
    Nat.not_le.2 h3 (Nat.le_of_dvd two_pos ((ZMod.natCast_eq_zero_iff 2 _).1 (mod_cast h)))
  have hdouble : (2 : ZMod cv.p.toNat) * y1.toNat = 0 := by
    rw [weierstrass_negY] at hY
    linear_combination hY
  refine eq_of_zmod_eq hy1 (by simpa using Nat.zero_lt_of_lt hy1) ?_
  simpa [hodd] using hdouble

/-- Points of the curve that are not opposite meet case 2 or 5 of rule R170, and their sum passes
the test of rule R173: the curve may be singular. -/
theorem pointAdd_of_not_opposite {X1 Y1 X2 Y2 : ZMod cv.p.toNat} {u v : CPoint}
    (hu : HasCoords cv X1 Y1 u) (hv : HasCoords cv X2 Y2 v)
    (h1 : (weierstrass cv).Equation X1 Y1) (h2 : (weierstrass cv).Equation X2 Y2)
    (hxy : ¬(X1 = X2 ∧ Y1 = (weierstrass cv).negY X2 Y2)) :
    ∃ q, pointAdd u v = .ok q ∧
      HasCoords cv ((weierstrass cv).addX X1 X2 ((weierstrass cv).slope X1 X2 Y1 Y2))
        ((weierstrass cv).addY X1 X2 Y1 ((weierstrass cv).slope X1 X2 Y1 Y2)) q := by
  obtain ⟨x1, y1, rfl, hx1, hy1, rfl, rfl⟩ := hu
  obtain ⟨x2, y2, rfl, hx2, hy2, rfl, rfl⟩ := hv
  by_cases hX : (x1.toNat : ZMod cv.p.toNat) = x2.toNat
  · have hneg := fun hY => hxy ⟨hX, hY⟩
    obtain rfl := eq_of_zmod_eq hx1 hx2 hX
    obtain rfl := eq_of_zmod_eq hy1 hy2 (Y_eq_of_Y_ne h1 h2 rfl hneg)
    have hy0 : y1 ≠ 0#256 := by
      rintro rfl
      exact hneg (by rw [weierstrass_negY, BitVec.toNat_zero, Nat.cast_zero, neg_zero])
    rw [weierstrass_negY] at hneg
    rw [pointAdd_tangent hy0]
    exact thirdPoint_of_slope rfl rfl rfl (tangentSlope_zmod hneg) h1 h2 hxy
  · have hx : x1 ≠ x2 := fun h => hX (by rw [h])
    rw [pointAdd_chord hx]
    exact thirdPoint_of_slope rfl rfl rfl (chordSlope_zmod _ _ hX) h1 h2 hxy

/-- Rule R173's claim: for a prime modulus of 3 or more, points that satisfy the invariant have a
sum that does. -/
theorem pointAdd_succeeds {u v : CPoint} (h3 : 3 ≤ cv.p.toNat) (hucv : u.cv = cv)
    (hvcv : v.cv = cv) (hu : u.Wf) (hv : v.Wf) :
    ∃ q, pointAdd u v = .ok q ∧ q.cv = cv ∧ q.Wf := by
  have hok : ∃ q, pointAdd u v = .ok q := by
    have hcv := hucv.trans hvcv.symm
    by_cases huinf : u.pt = .infinity
    · exact ⟨_, pointAdd_infinity_left hcv huinf⟩
    by_cases hvinf : v.pt = .infinity
    · exact ⟨_, pointAdd_infinity_right hcv hvinf⟩
    obtain ⟨X1, Y1, hc1, h1⟩ := hasCoords_of_wf hucv hu huinf
    obtain ⟨X2, Y2, hc2, h2⟩ := hasCoords_of_wf hvcv hv hvinf
    by_cases hxy : X1 = X2 ∧ Y1 = (weierstrass cv).negY X2 Y2
    · exact ⟨_, pointAdd_of_opposite h3 hc1 hc2 hxy.1 hxy.2⟩
    · obtain ⟨q, hq, -⟩ := pointAdd_of_not_opposite hc1 hc2 h1 h2 hxy
      exact ⟨q, hq⟩
  obtain ⟨q, hq⟩ := hok
  obtain ⟨q', hq', hcv, hwf⟩ | ⟨x, y, herr⟩ := pointAdd_of_cv_eq (hucv.trans hvcv.symm)
  · exact ⟨q', hq', hcv.trans hucv, hwf hu hv⟩
  · rw [hq] at herr
    cases herr

/-- On points of the group PointAdd is the group law. -/
theorem pointAdd_represents (h3 : 3 ≤ cv.p.toNat) {P Q : (weierstrass cv).Point} {u v : CPoint}
    (hu : Represents cv P u) (hv : Represents cv Q v) :
    ∃ q, pointAdd u v = .ok q ∧ Represents cv (P + Q) q := by
  have hcv : u.cv = v.cv := hu.1.trans hv.1.symm
  rcases P with _ | ⟨X1, Y1, h1⟩
  · exact ⟨v, pointAdd_infinity_left hcv hu.2, by rwa [← Point.zero_def, zero_add]⟩
  rcases Q with _ | ⟨X2, Y2, h2⟩
  · exact ⟨u, pointAdd_infinity_right hcv hv.2, by rwa [← Point.zero_def, add_zero]⟩
  rw [represents_some_iff] at hu hv
  by_cases hxy : X1 = X2 ∧ Y1 = (weierstrass cv).negY X2 Y2
  · rw [Point.add_of_Y_eq hxy.1 hxy.2]
    exact ⟨_, pointAdd_of_opposite h3 hu hv hxy.1 hxy.2, represents_zero_iff.2 rfl⟩
  · obtain ⟨q, hq, hcoords⟩ := pointAdd_of_not_opposite hu hv h1.1 h2.1 hxy
    rw [Point.add_some hxy]
    exact ⟨q, hq, represents_some_iff.2 hcoords⟩

/-! ### The order of the operands (rule R174) -/

/-- The slope of a chord does not depend on the order of its ends. -/
theorem chordSlope_comm {x1 x2 : Nat} (y1 y2 : Nat) (hx : (x1 : ZMod cv.p.toNat) ≠ x2) :
    chordSlope x1 y1 x2 y2 cv.p.toNat = chordSlope x2 y2 x1 y1 cv.p.toNat := by
  have hpos := (Fact.out : Nat.Prime cv.p.toNat).pos
  have hz : (chordSlope x1 y1 x2 y2 cv.p.toNat : ZMod cv.p.toNat) =
      chordSlope x2 y2 x1 y1 cv.p.toNat := by
    rw [chordSlope_zmod _ _ hx, chordSlope_zmod _ _ hx.symm, slope_of_X_ne hx,
      slope_of_X_ne hx.symm, ← neg_div_neg_eq, neg_sub, neg_sub]
  rwa [ZMod.natCast_eq_natCast_iff', Nat.mod_eq_of_lt (chordSlope_lt _ _ _ _ hpos),
    Nat.mod_eq_of_lt (chordSlope_lt _ _ _ _ hpos)] at hz

/-- PointAdd does not depend on the order of its operands, its errors included. -/
theorem pointAdd_comm {u v : CPoint} (hucv : u.cv = cv) (hu : u.Wf) (hv : v.Wf) :
    pointAdd u v = pointAdd v u := by
  obtain hcv | hcv := ne_or_eq u.cv v.cv
  · rw [pointAdd_of_cv_ne hcv, pointAdd_of_cv_ne (Ne.symm hcv)]
  by_cases huinf : u.pt = .infinity
  · rw [pointAdd_infinity_left hcv huinf, pointAdd_infinity_right hcv.symm huinf]
  by_cases hvinf : v.pt = .infinity
  · rw [pointAdd_infinity_right hcv hvinf, pointAdd_infinity_left hcv.symm hvinf]
  obtain ⟨_, _, ⟨x1, y1, rfl, hx1, _⟩, _⟩ := hasCoords_of_wf hucv hu huinf
  obtain ⟨_, _, ⟨x2, y2, rfl, hx2, _⟩, _⟩ := hasCoords_of_wf (hcv.symm.trans hucv) hv hvinf
  by_cases hx : x1 = x2
  · obtain rfl := hx
    by_cases hy : y1 = y2
    · rw [hy]
    · rw [pointAdd_vertical (.inl hy), pointAdd_vertical (.inl (Ne.symm hy))]
  · rw [pointAdd_chord hx, pointAdd_chord (Ne.symm hx)]
    have hX : (x1.toNat : ZMod cv.p.toNat) ≠ x2.toNat := mt (eq_of_zmod_eq hx1 hx2) hx
    rw [chordSlope_comm _ _ hX]
    refine thirdPoint_comm ?_
    rw [chordSlope_zmod _ _ hX.symm, slope_of_X_ne hX.symm,
      div_mul_cancel₀ _ (sub_ne_zero.2 hX.symm)]

end Prime

end Sys2Proof.Machine
end

section
/-!
PROOFS. The commands of 41_curve_point.md: how each ends on operands that hold values, and the
statements on them. PADD and PDBL end as PointAdd does; what it answers is proved above.
-/

namespace Sys2Proof.Machine

variable {s : State}

/-! ### How the commands end (rule R150) -/

theorem execCmk_of_some {i : Fin 2} {a b : ElemSel} {x y : Elem} (hx : s.f[a] = some x)
    (hy : s.f[b] = some y) (hp : x.prime = y.prime) :
    execCmk (.c i) a b s = .next ((s.writeC i ⟨x.val, y.val, x.prime⟩).respond false []) := by
  rw [execCmk, curveDest_c, Except.bind_ok, complete_readF hx, complete_readF hy,
    beq_iff_eq.2 hp, check_true]
  rfl

theorem execCst_of_holds {c : CurveSel} {cv : Curve} (h : s.HoldsC c cv) :
    execCst c s = .next (s.respond false (curveWords cv)) := by
  rw [execCst, readC_of_holds h]
  rfl

/-- With coordinates of the curve's modulus PMK ends as its membership test does (rule R155). -/
theorem execPmk_of_holds {i : Fin 8} {a b : ElemSel} {c : CurveSel} {x y : Elem} {cv : Curve}
    (hx : s.f[a] = some x) (hy : s.f[b] = some y) (hc : s.HoldsC c cv) (hxp : x.prime = cv.p)
    (hyp : y.prime = cv.p) :
    execPmk (.p i) a b c s =
      if onCurve x.val y.val cv then .next ((s.writeP i ⟨.affine x.val y.val, cv⟩).respond false [])
      else .next (s.raise (.pointNotOnCurve x.val y.val)) := by
  rw [execPmk, pointDest_p, Except.bind_ok, complete_readF hx, complete_readF hy,
    readC_of_holds hc, Except.bind_ok, beq_iff_eq.2 hxp, beq_iff_eq.2 hyp, Bool.and_self,
    check_true, Except.bind_ok]
  cases onCurve x.val y.val cv <;> rfl

theorem execPinf_of_holds {i : Fin 8} {c : CurveSel} {cv : Curve} (h : s.HoldsC c cv) :
    execPinf (.p i) c s = .next ((s.writeP i ⟨.infinity, cv⟩).respond false []) := by
  rw [execPinf, readC_of_holds h]
  rfl

section Points

variable {i : Fin 8} {a b : PointSel} {u v q : CPoint}

/-- A readable point is handed on to the rest of the command. -/
theorem complete_readP (hu : s.HoldsP a u) (k : CPoint → Except Err State) :
    complete s (s.readP a >>= k) = complete s (k u) := by
  rw [readP_of_holds hu, Except.bind_ok]

theorem execPmov_of_holds (hu : s.HoldsP a u) :
    execPmov (.p i) a s = .next ((s.writeP i u).respond false []) :=
  complete_readP hu _

theorem execPst_coords_of_holds (hu : s.HoldsP a u) :
    execPst a .coords s = .next (s.respond false (pointWords u.pt)) :=
  complete_readP hu _

theorem execPst_curve_of_holds (hu : s.HoldsP a u) :
    execPst a .curve s = .next (s.respond false (curveWords u.cv)) :=
  complete_readP hu _

theorem pointEq_eq (u v : CPoint) : pointEq u v = decide (u = v) := by
  obtain ⟨pt, cv⟩ := u
  obtain ⟨pt', cv'⟩ := v
  rw [Bool.eq_iff_iff, pointEq, Bool.and_eq_true, curveEq_iff, beq_iff_eq, decide_eq_true_iff,
    CPoint.mk.injEq]
  exact and_comm

theorem execPeq_of_holds (hu : s.HoldsP a u) (hv : s.HoldsP b v) :
    execPeq a b s = .next (s.respondTest (pointEq u v)) :=
  (complete_readP hu _).trans (complete_readP hv _)

/-- PADD hands its operands to PointAdd, and writes what that answers (rule R171). -/
theorem execPadd_of_holds (hu : s.HoldsP a u) (hv : s.HoldsP b v) :
    execPadd (.p i) a b s =
      complete s (pointAdd u v >>= fun q => pure ((s.writeP i q).respond false [])) :=
  (complete_readP hu _).trans (complete_readP hv _)

/-- PDBL is PADD of two registers that hold its point (rule R172). -/
theorem execPdbl_eq_execPadd (hu : s.HoldsP a u) (hv : s.HoldsP b u) :
    execPdbl (.p i) a s = execPadd (.p i) a b s :=
  (complete_readP hu _).trans (execPadd_of_holds hu hv).symm

theorem execPadd_of_ok (hu : s.HoldsP a u) (hv : s.HoldsP b v) (hq : pointAdd u v = .ok q) :
    execPadd (.p i) a b s = .next ((s.writeP i q).respond false []) := by
  rw [execPadd_of_holds hu hv, hq]
  rfl

theorem execPadd_of_error {e : Err} (hu : s.HoldsP a u) (hv : s.HoldsP b v)
    (he : pointAdd u v = .error e) : execPadd (.p i) a b s = .next (s.raise e) := by
  rw [execPadd_of_holds hu hv, he]
  rfl

end Points

/-! ### Curves and points -/

/-- Settles O37: CMK compares two moduli and nothing else, CST answers the words of a curve. -/
theorem curveCommands : Obligations.CurveCommands :=
  ⟨fun _ _ _ _ _ _ hx hy hp => execCmk_of_some hx hy hp, fun _ _ _ h => execCst_of_holds h⟩

/-- Settles O38, by the membership test (`onCurve_iff`). -/
theorem pmkChecksTheEquation : Obligations.PmkChecksTheEquation := by
  intro d a b c x y cv s hx hy hc hxp hyp
  have hends := execPmk_of_holds (i := d) hx hy hc hxp hyp
  exact ⟨fun hon => hends.trans (if_pos ((onCurve_iff _ _ _).2 hon)),
    fun hoff => hends.trans (if_neg (mt (onCurve_iff _ _ _).1 hoff))⟩

/-- Settles O39: each command writes what its one source holds. -/
theorem pointConstruction : Obligations.PointConstruction :=
  ⟨fun _ _ _ _ h => execPinf_of_holds h, fun _ _ _ _ h => execPmov_of_holds h⟩

/-- Settles O40: the coordinates are answered by the variant of the point (`pointWords`). -/
theorem pstReturnsPoint : Obligations.PstReturnsPoint := by
  intro a u s hu
  have hcoords := execPst_coords_of_holds hu
  refine ⟨fun x y hpt => ?_, fun hpt => ?_, execPst_curve_of_holds hu⟩
  · rw [hpt] at hcoords
    exact hcoords
  · rw [hpt] at hcoords
    exact hcoords

/-- Settles O41: the test compares curve and variant, which are the whole of a point
(`pointEq_eq`). -/
theorem peqComparesPoints : Obligations.PeqComparesPoints := by
  intro a b u v s hu hv
  rw [← pointEq_eq]
  exact execPeq_of_holds hu hv

/-! ### Point addition -/

/-- Settles O42, by the cases of PointAdd that compute no slope. -/
theorem paddWithoutSlope : Obligations.PaddWithoutSlope := by
  intro d a b u v s hu hv hcv
  refine ⟨fun hinf => execPadd_of_ok hu hv (pointAdd_infinity_left hcv hinf),
    fun hinf => execPadd_of_ok hu hv (pointAdd_infinity_right hcv hinf),
    fun x y1 y2 hupt hvpt hy => execPadd_of_ok hu hv ?_⟩
  obtain ⟨_, cv⟩ := u
  obtain ⟨_, cv'⟩ := v
  obtain rfl : cv = cv' := hcv
  obtain rfl := hupt
  obtain rfl := hvpt
  exact pointAdd_vertical hy

/-- PADD ends as the test of its third point does (rule R173). -/
theorem execPadd_of_tested {i : Fin 8} {a b : PointSel} {u v : CPoint} {cv : Curve} {x y : WInt}
    (hu : s.HoldsP a u) (hv : s.HoldsP b v) (h : Tested cv x y (pointAdd u v)) :
    (cv.Satisfied x.toNat y.toNat →
      execPadd (.p i) a b s = .next ((s.writeP i ⟨.affine x y, cv⟩).respond false [])) ∧
    (¬cv.Satisfied x.toNat y.toNat →
      execPadd (.p i) a b s = .next (s.raise (.pointNotOnCurve x y))) :=
  ⟨fun hon => execPadd_of_ok hu hv (h.1 hon), fun hoff => execPadd_of_error hu hv (h.2 hoff)⟩

/-- Settles O43: PointAdd answers the third point of the chord (`pointAdd_chord`). -/
theorem paddByTheChord : Obligations.PaddByTheChord := by
  rintro d a b ⟨_, cv⟩ ⟨_, cv'⟩ s x1 y1 x2 y2 p sl x3 y3 hu hv hcv hwf rfl rfl rfl hx hsl rfl rfl
  obtain rfl : cv = cv' := hcv
  obtain ⟨x, y, hx3, hy3, htest⟩ := thirdPoint_tested
    (chordSlope x1.toNat y1.toNat x2.toNat y2.toNat cv.p.toNat) x1.toNat y1.toNat x2.toNat hwf.1
  rw [chordSlope_cast _ _ _ _ (Nat.ne_zero_of_lt hwf.1), ← hsl] at hx3 hy3
  rw [← pointAdd_chord hx] at htest
  exact ⟨x, y, hx3, by rw [hy3, hx3], execPadd_of_tested hu hv htest⟩

/-- Settles O44: PointAdd answers the third point of the tangent (`pointAdd_tangent`), and PDBL is
PADD of its point (`execPdbl_eq_execPadd`). -/
theorem doublingByTheTangent : Obligations.DoublingByTheTangent := by
  refine ⟨?_, fun d a u s hu hcase => ?_⟩
  · rintro d a b ⟨_, cv⟩ s x1 y1 p sl x3 y3 hu hv hwf rfl rfl hy hsl rfl rfl
    obtain ⟨x, y, hx3, hy3, htest⟩ := thirdPoint_tested
      (tangentSlope x1.toNat y1.toNat cv.a.toNat cv.p.toNat) x1.toNat y1.toNat x1.toNat hwf.1
    rw [tangentSlope_cast _ _ _ (Nat.ne_zero_of_lt hwf.1), ← hsl] at hx3 hy3
    rw [← pointAdd_tangent hy] at htest
    have hadd := execPadd_of_tested (i := d) hu hv htest
    refine ⟨x, y, hx3, by rw [hy3, hx3], fun i hi => ?_⟩
    obtain rfl | rfl : i = .padd (.p d) a b ∨ i = .pdbl (.p d) a := by simpa using hi
    · exact hadd
    · rw [← execPdbl_eq_execPadd hu hv] at hadd
      exact hadd
  · refine (execPdbl_eq_execPadd hu hu).trans (execPadd_of_ok hu hu ?_)
    obtain ⟨pt, cv⟩ := u
    obtain rfl | ⟨x, rfl⟩ := hcase
    · exact pointAdd_infinity_left rfl rfl
    · exact pointAdd_vertical (.inr rfl)

/-- Settles O46: PointAdd itself does not depend on the order (`pointAdd_comm`). -/
theorem paddCommutes : Obligations.PaddCommutes := by
  intro d a b u v s hu hv huwf hvwf hp
  have : Fact (Nat.Prime u.cv.p.toNat) := ⟨hp⟩
  refine (execPadd_of_holds hu hv).trans ?_
  rw [pointAdd_comm rfl huwf hvwf]
  exact (execPadd_of_holds hv hu).symm

/-- Settles O45: on a chord or a tangent the sum satisfies the equation, by an identity that holds
over any field (`pointAdd_succeeds`). -/
theorem additionStaysOnTheCurveForPrimes : Obligations.AdditionStaysOnTheCurveForPrimes := by
  intro d a b u v s hu hv hcv huwf hvwf hp h3
  have : Fact (Nat.Prime u.cv.p.toNat) := ⟨hp⟩
  obtain ⟨q, hq, hqcv, hqwf⟩ := pointAdd_succeeds h3 rfl hcv.symm huwf hvwf
  obtain ⟨q', hq', hqcv', hqwf'⟩ := pointAdd_succeeds h3 rfl rfl huwf huwf
  exact ⟨⟨q, hqcv, hqwf, execPadd_of_ok hu hv hq⟩,
    ⟨q', hqcv', hqwf', (execPdbl_eq_execPadd hu hu).trans (execPadd_of_ok hu hu hq')⟩⟩

/-- Settles O49: PointAdd computes the group law (`pointAdd_represents`). -/
theorem paddIsTheGroupLaw : Obligations.PaddIsTheGroupLaw := by
  intro cv _ P Q u v d a b s h3 hu hv hP hQ
  obtain ⟨q, hq, hsum⟩ := pointAdd_represents h3 hP hQ
  obtain ⟨q', hq', hdouble⟩ := pointAdd_represents h3 hP hP
  exact ⟨⟨q, hsum, execPadd_of_ok hu hv hq⟩,
    ⟨q', hdouble, (execPdbl_eq_execPadd hu hu).trans (execPadd_of_ok hu hu hq')⟩⟩

end Sys2Proof.Machine
end

section
/-!
PROOFS. The scalar multiplication of 42_scalar_mul_secp256k1.md: the bounded loop is the `while`
loop of rule R192, and on points of the group it computes the multiple; how PMUL and PMULN end.
-/

namespace Sys2Proof.Machine

open WeierstrassCurve.Affine

/-! ### The loop (rule R192) -/

theorem addIfOdd_eq_ok {k : Nat} {result term q : CPoint} :
    addIfOdd k result term = .ok q ↔
      if k % 2 = 1 then pointAdd result term = .ok q else q = result := by
  unfold addIfOdd
  split
  · rfl
  · rw [Except.ok.injEq, eq_comm]

theorem addIfOdd_eq_error {k : Nat} {result term : CPoint} {e : Err} :
    addIfOdd k result term = .error e ↔ k % 2 = 1 ∧ pointAdd result term = .error e := by
  unfold addIfOdd
  split <;> simp [*]

@[simp] theorem scalarLoop_zero (n : Nat) (result term : CPoint) :
    scalarLoop n 0 result term = .ok result := by
  cases n <;> rfl

/-- One iteration of the loop, as a sequence. -/
theorem scalarLoop_succ {n k : Nat} (hk : k ≠ 0) (result term : CPoint) :
    scalarLoop (n + 1) k result term =
      (addIfOdd k result term >>= fun result' =>
        pointAdd term term >>= fun term' => scalarLoop n (k / 2) result' term') := by
  rw [scalarLoop, if_neg hk]
  cases addIfOdd k result term with
  | error e => rfl
  | ok result' => cases pointAdd term term <;> rfl

/-- A scalar that is not zero has a bit for an iteration to take. -/
theorem exists_succ_of_lt_two_pow {n k : Nat} (hk : k ≠ 0) (h : k < 2 ^ n) :
    ∃ m, n = m + 1 ∧ k / 2 < 2 ^ m := by
  cases n with
  | zero => omega
  | succ m => exact ⟨m, rfl, by omega⟩

/-- Given an iteration for each bit of the scalar, the bounded loop ends as the `while` loop. -/
theorem scalarRun_scalarLoop {n k : Nat} (h : k < 2 ^ n) (result term : CPoint) :
    ScalarRun k result term (scalarLoop n k result term) := by
  induction n generalizing k result term with
  | zero =>
    obtain rfl : k = 0 := by simpa using h
    exact .done _ _
  | succ n ih =>
    obtain rfl | hk := eq_or_ne k 0
    · rw [scalarLoop_zero]
      exact .done _ _
    rw [scalarLoop_succ hk]
    cases hadd : addIfOdd k result term with
    | error e =>
      obtain ⟨hodd, herr⟩ := addIfOdd_eq_error.1 hadd
      exact .addRaises _ _ _ _ hodd herr
    | ok result' =>
      have hadd' := addIfOdd_eq_ok.1 hadd
      cases hdouble : pointAdd term term with
      | error e => exact .doubleRaises _ _ _ _ _ hk hadd' hdouble
      | ok term' => exact .again _ _ _ _ _ _ hk hadd' hdouble (ih (by omega) _ _)

/-- Conversely, the `while` loop ends in no other way. -/
theorem scalarLoop_of_scalarRun {n k : Nat} {result term : CPoint} {r : Except Err CPoint}
    (hrun : ScalarRun k result term r) (h : k < 2 ^ n) : scalarLoop n k result term = r := by
  induction hrun generalizing n with
  | done result term => exact scalarLoop_zero n result term
  | addRaises k result term e hodd hadd =>
    have hk : k ≠ 0 := by omega
    obtain ⟨m, rfl, -⟩ := exists_succ_of_lt_two_pow hk h
    rw [scalarLoop_succ hk, addIfOdd_eq_error.2 ⟨hodd, hadd⟩, Except.bind_error]
  | doubleRaises k result term result' e hk hadd hdouble =>
    obtain ⟨m, rfl, -⟩ := exists_succ_of_lt_two_pow hk h
    rw [scalarLoop_succ hk, addIfOdd_eq_ok.2 hadd, Except.bind_ok, hdouble, Except.bind_error]
  | again k result term result' term' r hk hadd hdouble _ ih =>
    obtain ⟨m, rfl, hm⟩ := exists_succ_of_lt_two_pow hk h
    rw [scalarLoop_succ hk, addIfOdd_eq_ok.2 hadd, Except.bind_ok, hdouble, Except.bind_ok, ih hm]

theorem scalarRun_iff_scalarMul {k : Nat} {u : CPoint} {r : Except Err CPoint} :
    ScalarRun k ⟨.infinity, u.cv⟩ u r ↔ scalarMul k u = r := by
  constructor
  · exact fun hrun => scalarLoop_of_scalarRun hrun Nat.lt_log2_self
  · rintro rfl
    exact scalarRun_scalarLoop Nat.lt_log2_self _ _

/-! ### Multiples in the group -/

/-- A point of the group is stood for by one register value. -/
theorem represents_unique {cv : Curve} {P : (weierstrass cv).Point} {u v : CPoint}
    (hu : Represents cv P u) (hv : Represents cv P v) : u = v := by
  rcases P with _ | ⟨X, Y, h⟩
  · rw [← Point.zero_def, represents_zero_iff] at hu hv
    rw [hu, hv]
  · rw [represents_some_iff] at hu hv
    obtain ⟨x, y, rfl, hx, hy, hX, hY⟩ := hu
    obtain ⟨x', y', rfl, hx', hy', hX', hY'⟩ := hv
    rw [eq_of_zmod_eq hx hx' (hX.trans hX'.symm), eq_of_zmod_eq hy hy' (hY.trans hY'.symm)]

section Group

variable {cv : Curve} [Fact (Nat.Prime cv.p.toNat)]

/-- On points of the group the loop adds the `k`-fold sum of `term` to `result`. -/
theorem scalarLoop_represents (h3 : 3 ≤ cv.p.toNat) {n k : Nat} (h : k < 2 ^ n)
    {R T : (weierstrass cv).Point} {result term : CPoint} (hR : Represents cv R result)
    (hT : Represents cv T term) :
    ∃ q, scalarLoop n k result term = .ok q ∧ Represents cv (R + k • T) q := by
  induction n generalizing k R T result term with
  | zero =>
    obtain rfl : k = 0 := by simpa using h
    exact ⟨result, rfl, by rwa [zero_nsmul, add_zero]⟩
  | succ n ih =>
    obtain rfl | hk := eq_or_ne k 0
    · exact ⟨result, scalarLoop_zero _ _ _, by rwa [zero_nsmul, add_zero]⟩
    obtain ⟨result', hadd, hR'⟩ : ∃ q, addIfOdd k result term = .ok q ∧
        Represents cv (R + (k % 2) • T) q := by
      obtain heven | hodd := Nat.mod_two_eq_zero_or_one k
      · exact ⟨result, by rw [addIfOdd, heven]; rfl, by rwa [heven, zero_nsmul, add_zero]⟩
      · rw [addIfOdd, if_pos hodd, hodd, one_nsmul]
        exact pointAdd_represents h3 hR hT
    obtain ⟨term', hdouble, hT'⟩ := pointAdd_represents h3 hT hT
    obtain ⟨q, hq, hsum⟩ := ih (k := k / 2) (by omega) hR' hT'
    refine ⟨q, ?_, ?_⟩
    · rw [scalarLoop_succ hk, hadd, Except.bind_ok, hdouble, Except.bind_ok, hq]
    · rwa [← two_nsmul, add_assoc, ← mul_nsmul, ← add_nsmul, Nat.mod_add_div] at hsum

theorem scalarMul_represents (h3 : 3 ≤ cv.p.toNat) (k : Nat) {P : (weierstrass cv).Point}
    {u : CPoint} (hu : Represents cv P u) :
    ∃ q, scalarMul k u = .ok q ∧ Represents cv (k • P) q := by
  rw [scalarMul, hu.1]
  simpa using scalarLoop_represents h3 Nat.lt_log2_self (represents_zero_iff.2 rfl) hu

end Group

/-! ### How the commands end (rule R190) -/

section Commands

variable {s : State} {i : Fin 8} {a : PointSel} {u : CPoint}

/-- What the two commands do with the answer of `ScalarMul`. -/
def writeMultiple (s : State) (i : Fin 8) (r : Except Err CPoint) :
    Host.Outcome State Fault Refusal :=
  complete s (r >>= fun q => pure ((s.writeP i q).respond false []))

theorem execPmul_of_holds (hu : s.HoldsP a u) (payload : WInt) :
    execPmul (.p i) a payload s = writeMultiple s i (scalarMul payload.toNat u) :=
  complete_readP hu _

theorem execPmuln_of_holds (hu : s.HoldsP a u) (hcv : u.cv = Config.k1) (payload : WInt) :
    execPmuln (.p i) a payload s =
      writeMultiple s i (scalarMul (payload.toNat % Config.sn.toNat) u) := by
  refine (complete_readP hu _).trans ?_
  rw [hcv, curveEq_self, tmod_natCast]
  rfl

end Commands

/-- Settles O47: the bound of the model's loop, the bits of the scalar, never cuts it short. -/
theorem scalarMulIsTheLoop : Obligations.ScalarMulIsTheLoop := fun _ _ _ => scalarRun_iff_scalarMul

/-- Settles O48: both commands end as `ScalarMul` answers, whose only error is PointNotOnCurve
(`scalarMul_answers`). -/
theorem scalarCommandsRunTheLoop : Obligations.ScalarCommandsRunTheLoop := by
  intro d a payload u s i k r hu hi hrun
  have hends : exec i s = writeMultiple s d r := by
    rw [← scalarRun_iff_scalarMul.1 hrun]
    obtain ⟨rfl, rfl⟩ | ⟨rfl, rfl, hcv⟩ := hi
    · exact execPmul_of_holds hu payload
    · exact execPmuln_of_holds hu hcv payload
  rw [hends, ← scalarRun_iff_scalarMul.1 hrun]
  obtain ⟨q, hq, -⟩ | ⟨x, y, herr⟩ := scalarMul_answers k u
  · rw [hq]
    exact .inl ⟨q, rfl, rfl⟩
  · rw [herr]
    exact .inr ⟨x, y, rfl, rfl⟩

/-- Settles O50: each doubling and each addition of the loop is the group's
(`scalarMul_represents`). -/
theorem pmulIsTheKFoldSum : Obligations.PmulIsTheKFoldSum := by
  intro cv _ P u d a payload s h3 hu hP
  obtain ⟨q, hq, hsum⟩ := scalarMul_represents h3 payload.toNat hP
  exact ⟨q, hsum, (execPmul_of_holds hu payload).trans (congrArg _ hq)⟩

/-! ### secp256k1 -/

/-- `K1` is nonsingular. -/
theorem k1_disc_ne_zero : (weierstrass Config.k1).Δ ≠ 0 := by
  rw [weierstrass_disc, Ne, ZMod.intCast_zmod_eq_zero_iff_dvd]
  decide +kernel

/-- Settles O51: every point of `K1` is a point of its group, since `SP` is prime (`sp_prime`) and
`K1` nonsingular, so the loop computes its multiple (`scalarMul_represents`). -/
theorem pmulnNeverLeavesTheCurve : Obligations.PmulnNeverLeavesTheCurve := by
  intro u d a payload s hu hcv hwf
  have hp : Fact (Nat.Prime Config.k1.p.toNat) := ⟨sp_prime⟩
  obtain ⟨P, hP⟩ := represents_of_liesOn k1_disc_ne_zero hcv (hcv ▸ hwf.2)
  obtain ⟨q, hq, hsum⟩ := scalarMul_represents (by decide) (payload.toNat % Config.sn.toNat) hP
  exact ⟨hp, P, q, hP, hsum, (execPmuln_of_holds hu hcv payload).trans (congrArg _ hq)⟩

end Sys2Proof.Machine
end

section
/-!
PROOFS. `SN` times the generator is the identity of secp256k1 (42_scalar_mul_secp256k1.md rule
R195), evaluated in Jacobian coordinates: they scale a point by the divisor of its slope where rule
R170 divides by it, so that no modular power is needed. Then PMULN and PMUL of `G` end alike.
-/

namespace Sys2Proof.Machine

open WeierstrassCurve.Affine

/-! ### Jacobian coordinates -/

/-- Coordinates of the affine point `(x / z^2, y / z^3)`. -/
structure Jacobian where
  x : Int
  y : Int
  z : Int

namespace Jacobian

/-- The third point on the line through `t` with slope `r / (h * z)`, `x2 / z^2` being the other
point's first coordinate: `z` is scaled by `h`. -/
def third (p : Int) (t : Jacobian) (x2 r h : Int) : Jacobian :=
  let x := (r ^ 2 - (t.x + x2) * h ^ 2) % p
  ⟨x, (r * (t.x * h ^ 2 - x) - t.y * h ^ 3) % p, t.z * h % p⟩

/-- The line is the tangent at `t`. -/
def double (cv : Curve) (t : Jacobian) : Jacobian :=
  t.third cv.p.toNat t.x (3 * t.x ^ 2 + cv.a.toNat * t.z ^ 4) (2 * t.y)

/-- The line is the chord through `t` and the affine point `(x, y)`. -/
def addAffine (cv : Curve) (x y : Nat) (t : Jacobian) : Jacobian :=
  t.third cv.p.toNat (x * t.z ^ 2) (y * t.z ^ 3 - t.y) (x * t.z ^ 2 - t.x)

/-- `k` times the affine point `(x, y)`, for `0 < k < 2^(n + 1)`, from the most significant bit
of `k` down. -/
def multiple (cv : Curve) (x y : Nat) : (n k : Nat) → Jacobian
  | 0, _ => ⟨x, y, 1⟩
  | n + 1, k =>
    if k = 1 then ⟨x, y, 1⟩
    else
      let t := (multiple cv x y n (k / 2)).double cv
      if k % 2 = 1 then t.addAffine cv x y else t

variable {cv : Curve}

/-- `t` has coordinates of `P`, an affine point of the group. -/
def StandsFor (t : Jacobian) (P : (weierstrass cv).Point) : Prop :=
  ∃ x y h, P = .some x y h ∧ (t.x : ZMod cv.p.toNat) = x * t.z ^ 2 ∧
    (t.y : ZMod cv.p.toNat) = y * t.z ^ 3

theorem third_z (t : Jacobian) (x2 r h : Int) :
    ((t.third cv.p.toNat x2 r h).z : ZMod cv.p.toNat) = t.z * h := by
  rw [third, ZMod.intCast_mod, Int.cast_mul]

/-- A third coordinate that is not zero has no zero factor. -/
theorem third_z_ne_zero {t : Jacobian} {x2 r h : Int}
    (hz : ((t.third cv.p.toNat x2 r h).z : ZMod cv.p.toNat) ≠ 0) :
    (t.z : ZMod cv.p.toNat) ≠ 0 ∧ (h : ZMod cv.p.toNat) ≠ 0 := by
  rw [third_z] at hz
  exact ne_zero_and_ne_zero_of_mul hz

theorem multiple_two_mul {x y n m : Nat} :
    multiple cv x y (n + 1) (2 * m) = (multiple cv x y n m).double cv := by
  rw [multiple, if_neg (by omega), if_neg (by omega), Nat.mul_div_cancel_left m two_pos]

theorem multiple_two_mul_add_one {x y n m : Nat} (hm : m ≠ 0) :
    multiple cv x y (n + 1) (2 * m + 1) = ((multiple cv x y n m).double cv).addAffine cv x y := by
  rw [multiple, if_neg (by omega), if_pos (by omega), show (2 * m + 1) / 2 = m by omega]

section Prime

variable [Fact (Nat.Prime cv.p.toNat)]

/-- With the slope of the line through two points of the group the third point has coordinates of
their sum. -/
theorem third_standsFor {t : Jacobian} {X2 r h : Int} {x1 y1 x2 y2 : ZMod cv.p.toNat}
    {h1 : (weierstrass cv).Nonsingular x1 y1} {h2 : (weierstrass cv).Nonsingular x2 y2}
    (hx1 : (t.x : ZMod cv.p.toNat) = x1 * t.z ^ 2) (hy1 : (t.y : ZMod cv.p.toNat) = y1 * t.z ^ 3)
    (hx2 : (X2 : ZMod cv.p.toNat) = x2 * t.z ^ 2)
    (hxy : ¬(x1 = x2 ∧ y1 = (weierstrass cv).negY x2 y2))
    (hsl : (r : ZMod cv.p.toNat) = (weierstrass cv).slope x1 x2 y1 y2 * (h * t.z)) :
    (t.third cv.p.toNat X2 r h).StandsFor (Point.some x1 y1 h1 + Point.some x2 y2 h2) := by
  have hx : ((t.third cv.p.toNat X2 r h).x : ZMod cv.p.toNat) =
      (weierstrass cv).addX x1 x2 ((weierstrass cv).slope x1 x2 y1 y2) * (t.z * h) ^ 2 := by
    rw [third, ZMod.intCast_mod, weierstrass_addX]
    push_cast
    rw [hx1, hx2, hsl]
    ring
  refine ⟨_, _, _, Point.add_some hxy, by rw [hx, third_z], ?_⟩
  have hy : ((t.third cv.p.toNat X2 r h).y : ZMod cv.p.toNat) =
      r * (t.x * h ^ 2 - (t.third cv.p.toNat X2 r h).x) - t.y * h ^ 3 := by
    simp only [third]
    rw [ZMod.intCast_mod]
    push_cast
    rfl
  rw [hy, hx, third_z, weierstrass_addX, weierstrass_addY, hx1, hy1, hsl]
  ring

theorem double_standsFor {t : Jacobian} {P : (weierstrass cv).Point} (ht : t.StandsFor P)
    (hz : ((t.double cv).z : ZMod cv.p.toNat) ≠ 0) : (t.double cv).StandsFor (P + P) := by
  obtain ⟨x, y, h, rfl, hx, hy⟩ := ht
  have hdiv : (y : ZMod cv.p.toNat) - -y ≠ 0 := by
    intro h0
    refine (third_z_ne_zero hz).2 ?_
    push_cast
    rw [hy]
    linear_combination t.z ^ 3 * h0
  have hneg : y ≠ (weierstrass cv).negY x y := by
    rw [weierstrass_negY]
    exact sub_ne_zero.1 hdiv
  refine third_standsFor hx hy hx (fun hxy => hneg hxy.2) ?_
  have hsl : (weierstrass cv).slope x x y y * (y - -y) = 3 * x ^ 2 + cv.a.toNat := by
    rw [slope_of_Y_ne rfl hneg, weierstrass_negY, div_mul_cancel₀ _ hdiv]
    simp only [weierstrass]
    ring
  push_cast
  rw [hx, hy]
  linear_combination -t.z ^ 4 * hsl

theorem addAffine_standsFor {t : Jacobian} {P : (weierstrass cv).Point} (ht : t.StandsFor P)
    {x y : Nat} (h : (weierstrass cv).Nonsingular (x : ZMod cv.p.toNat) (y : ZMod cv.p.toNat))
    (hz : ((t.addAffine cv x y).z : ZMod cv.p.toNat) ≠ 0) :
    (t.addAffine cv x y).StandsFor (P + .some _ _ h) := by
  obtain ⟨x1, y1, h1, rfl, hx1, hy1⟩ := ht
  have hne : x1 ≠ x := by
    rintro rfl
    refine (third_z_ne_zero hz).2 ?_
    push_cast
    rw [hx1, sub_self]
  refine third_standsFor hx1 hy1 (by push_cast; rfl) (fun hxy => hne hxy.1) ?_
  have hsl := div_mul_cancel₀ (y1 - y) (sub_ne_zero.2 hne)
  rw [← slope_of_X_ne hne] at hsl
  push_cast
  rw [hx1, hy1]
  linear_combination t.z ^ 3 * hsl

/-- Where the third coordinate is not zero at the end, no slope on the way had divisor zero. -/
theorem multiple_standsFor {x y : Nat}
    (h : (weierstrass cv).Nonsingular (x : ZMod cv.p.toNat) (y : ZMod cv.p.toNat)) {n k : Nat}
    (hk : k ≠ 0) (hlt : k < 2 ^ (n + 1))
    (hz : ((multiple cv x y n k).z : ZMod cv.p.toNat) ≠ 0) :
    (multiple cv x y n k).StandsFor (k • Point.some _ _ h) := by
  have hone : (⟨x, y, 1⟩ : Jacobian).StandsFor (1 • Point.some _ _ h) :=
    ⟨_, _, h, one_nsmul _, by simp, by simp⟩
  induction n generalizing k with
  | zero =>
    obtain rfl : k = 1 := by omega
    exact hone
  | succ n ih =>
    have hdouble {m : Nat} (hm : m ≠ 0) (hmlt : m < 2 ^ (n + 1))
        (hz : (((multiple cv x y n m).double cv).z : ZMod cv.p.toNat) ≠ 0) :
        ((multiple cv x y n m).double cv).StandsFor ((2 * m) • Point.some _ _ h) := by
      rw [mul_nsmul', two_nsmul]
      exact double_standsFor (ih hm hmlt (third_z_ne_zero hz).1) hz
    obtain ⟨m, rfl | rfl⟩ := k.even_or_odd'
    · rw [multiple_two_mul] at hz ⊢
      exact hdouble (by omega) (by omega) hz
    · obtain rfl | hm := eq_or_ne m 0
      · exact hone
      rw [multiple_two_mul_add_one hm] at hz ⊢
      rw [succ_nsmul]
      exact addAffine_standsFor (hdouble hm (by omega) (third_z_ne_zero hz).1) h hz

end Prime

end Jacobian

/-! ### The order of the generator (rules R38, R40, R195) -/

theorem g_nonsingular : (weierstrass Config.k1).Nonsingular
    (Config.gx.toNat : ZMod Config.k1.p.toNat) (Config.gy.toNat : ZMod Config.k1.p.toNat) := by
  have : Fact (Nat.Prime Config.k1.p.toNat) := ⟨sp_prime⟩
  exact (equation_iff_nonsingular_of_Δ_ne_zero k1_disc_ne_zero).1
    ((satisfied_iff_equation _ _ _).1 (by decide +kernel))

theorem g_represents : Represents Config.k1 (Point.some _ _ g_nonsingular) Config.g :=
  represents_some_iff.2 ⟨_, _, rfl, by decide +kernel, by decide +kernel, rfl, rfl⟩

/-- `(SN - 1) * G` in Jacobian coordinates. -/
def gLastMultiple : Jacobian :=
  .multiple Config.k1 Config.gx.toNat Config.gy.toNat 255 (Config.sn.toNat - 1)

/-- The digits of the constants make it the inverse of `G`. -/
theorem gLastMultiple_eq_neg_g :
    ¬(Config.k1.p.toNat : Int) ∣ gLastMultiple.z ∧
      (Config.k1.p.toNat : Int) ∣ gLastMultiple.x - Config.gx.toNat * gLastMultiple.z ^ 2 ∧
      (Config.k1.p.toNat : Int) ∣ gLastMultiple.y + Config.gy.toNat * gLastMultiple.z ^ 3 := by
  decide +kernel

theorem sn_nsmul_g [Fact (Nat.Prime Config.k1.p.toNat)] :
    Config.sn.toNat • Point.some _ _ g_nonsingular = 0 := by
  obtain ⟨hz, hx, hy⟩ := gLastMultiple_eq_neg_g
  rw [← ZMod.intCast_zmod_eq_zero_iff_dvd] at hz hx hy
  have hstands : gLastMultiple.StandsFor
      ((Config.sn.toNat - 1) • Point.some _ _ g_nonsingular) :=
    Jacobian.multiple_standsFor g_nonsingular (by decide) (by decide) hz
  obtain ⟨x, y, h, hP, htx, hty⟩ := hstands
  push_cast at hx hy
  rw [show Config.sn.toNat = Config.sn.toNat - 1 + 1 by decide, succ_nsmul, hP]
  refine Point.add_of_Y_eq (mul_right_cancel₀ (pow_ne_zero 2 hz) ?_)
    (mul_right_cancel₀ (pow_ne_zero 3 hz) ?_)
  · linear_combination hx - htx
  · rw [weierstrass_negY]
    linear_combination hy - hty

/-- Settles O52: `SN` times the generator is the identity (`sn_nsmul_g`), so scalars of one residue
modulo `SN` give one multiple, which one register value stands for. -/
theorem pmulnAgreesWithPmulOnTheGenerator : Obligations.PmulnAgreesWithPmulOnTheGenerator := by
  have : Fact (Nat.Prime Config.k1.p.toNat) := ⟨sp_prime⟩
  have hg (s : State) : s.HoldsP .g Config.g := rfl
  have multiple (k : Nat) := scalarMul_represents (by decide) k g_represents
  refine ⟨fun d payload s => ?_, fun d s => ?_⟩
  · obtain ⟨q, hq, hrep⟩ := multiple payload.toNat
    obtain ⟨q', hq', hrep'⟩ := multiple (payload.toNat % Config.sn.toNat)
    rw [← nsmul_eq_mod_nsmul _ sn_nsmul_g] at hrep'
    obtain rfl := represents_unique hrep hrep'
    exact (execPmuln_of_holds (hg s) rfl payload).trans
      ((congrArg _ (hq'.trans hq.symm)).trans (execPmul_of_holds (hg s) payload).symm)
  · obtain ⟨q, hq, hrep⟩ := multiple Config.sn.toNat
    rw [sn_nsmul_g] at hrep
    obtain rfl := represents_zero_iff.1 hrep
    exact (execPmul_of_holds (hg s) Config.sn).trans (congrArg _ hq)

end Sys2Proof.Machine
end

section
/-!
PROOFS. The system commands of 43_system_transfer.md: what NOP, RDST and CLRST leave and answer
(rules R210 to R212), and IllegalCommand for every other word of their opcodes (rules R85, R88).
-/

namespace Sys2Proof

/-! ### The words of an opcode (rules R81, R84) -/

/-- Words that decode begin with the header of the command they stand for. -/
theorem header_of_decode {h : Word} {payload : List Word} {i : Instr}
    (hd : decode (h :: payload) = .ok i) : h = headerWord (encodeFields i) :=
  (List.cons.inj (decodedWordsAreTheEncoding _ i hd).2).1.symm

theorem opcode_headerWord (x : Header) : (headerWord x).extractLsb' 24 8 = x.op :=
  congrArg Header.op (headerFields_headerWord x)

theorem eq_nop_of_opcode {i : Instr} (h : (encodeFields i).op = 0x01#8) : i = .nop := by
  cases i with
  | nop => rfl
  | _ => simp [encodeFields] at h

theorem eq_rdst_of_opcode {i : Instr} (h : (encodeFields i).op = 0x02#8) :
    ∃ sel, i = .rdst sel := by
  cases i with
  | rdst sel => exact ⟨sel, rfl⟩
  | _ => simp [encodeFields] at h

theorem eq_clrst_of_opcode {i : Instr} (h : (encodeFields i).op = 0x03#8) : i = .clrst := by
  cases i with
  | clrst => rfl
  | _ => simp [encodeFields] at h

end Sys2Proof

namespace Sys2Proof.Machine

variable {s : State}

/-! ### Words of an opcode that are no command (rules R85, R88) -/

/-- A word of an opcode without payload that is the header of no command ends with IllegalCommand:
if it decoded, it would be the header of what it decodes to. -/
theorem step_of_no_command {op : BitVec 8} {h : Word} {rest : List PortEvent}
    (hpayload : op ∉ payloadOpcodes) (hop : h.extractLsb' 24 8 = op)
    (hno : ∀ i, (encodeFields i).op = op → h ≠ headerWord (encodeFields i))
    (hport : s.port = .word h :: rest) :
    step s = .next { s with
      port := rest
      sticky := s.sticky ||| 0b0001000#7
      responses := s.responses ++ [⟨4#8, false, []⟩] } := by
  subst hop
  cases hd : decode [h] with
  | ok i =>
    have hh := header_of_decode hd
    exact absurd hh (hno i (by rw [hh, opcode_headerWord]))
  | error e =>
    exact illegalCommandTakesItsWords.1 s h [] rest e (if_neg hpayload).symm hd hport

/-! ### The `STATUS` word (10_state.md rule R32) -/

theorem State.toNat_status (s : State) :
    s.status.toNat = s.sticky.toNat * 2 ^ 9 + (if s.t = true then 1 else 0) := by
  have hsticky : (0#16 ++ s.sticky ++ 0#8).toNat = 2 ^ 8 * s.sticky.toNat := by
    rw [toNat_append_eq_add, toNat_append_eq_add]
    simp
  have ht : (BitVec.ofBool s.t).toNat = if s.t = true then 1 else 0 := by
    cases s.t <;> rfl
  have hstatus : s.status.toNat =
      (BitVec.ofBool s.t).toNat + 2 ^ 1 * (0#16 ++ s.sticky ++ 0#8).toNat :=
    toNat_append_eq_add _ _
  omega

/-! ### The statements -/

/-- Settles O20: NOP ends with its response, and its header is the only one of its opcode
(`eq_nop_of_opcode`). -/
theorem nopOnlyResponds : Obligations.NopOnlyResponds := by
  refine ⟨fun s => complete_ok s _, decodeOfEncodeIsIdentity .nop rfl, ?_⟩
  intro s h rest hop hne hport
  refine step_of_no_command (by decide) hop (fun i hi => ?_) hport
  obtain rfl := eq_nop_of_opcode hi
  exact hne

/-- Settles O21: RDST ends with its response, `STATUS` has the layout of `State.toNat_status`, and
the headers of the opcode are those of the three forms (`eq_rdst_of_opcode`). -/
theorem rdstReturnsStatus : Obligations.RdstReturnsStatus := by
  refine ⟨fun s => ⟨⟨s.status, s.toNat_status, complete_ok s _⟩, complete_ok s _, complete_ok s _⟩,
    decodeOfEncodeIsIdentity (.rdst .status) rfl, decodeOfEncodeIsIdentity (.rdst .errinfo) rfl,
    decodeOfEncodeIsIdentity (.rdst .ident) rfl, ?_⟩
  intro s h rest hop hne hport
  refine step_of_no_command (by decide) hop (fun i hi => ?_) hport
  obtain ⟨sel, rfl⟩ := eq_rdst_of_opcode hi
  rintro rfl
  refine hne ?_
  cases sel <;> decide

/-- Settles O22: CLRST clears the sticky bits and ends with its response, and its header is the only
one of its opcode (`eq_clrst_of_opcode`). -/
theorem clrstClearsStickyOnly : Obligations.ClrstClearsStickyOnly := by
  refine ⟨fun s => complete_ok s _, decodeOfEncodeIsIdentity .clrst rfl, ?_⟩
  intro s h rest hop hne hport
  refine step_of_no_command (by decide) hop (fun i hi => ?_) hport
  obtain rfl := eq_clrst_of_opcode hi
  exact hne

end Sys2Proof.Machine
end

section
/-!
PROOFS. The errors of 60_exceptions.md: what an error leaves unchanged (rules R236, R238), when a
command raises Uninit (rule R234), and the two mismatches (rule R231).
-/

namespace Sys2Proof.Machine

variable {s t : State}

/-! ### Taking an error, written out (rules R231, R236) -/

theorem State.raise_fieldMismatch (s : State) :
    s.raise .fieldMismatch = { s with
      sticky := s.sticky ||| 0b0000001#7
      responses := s.responses ++ [⟨1#8, false, []⟩] } := rfl

theorem State.raise_curveMismatch (s : State) :
    s.raise .curveMismatch = { s with
      sticky := s.sticky ||| 0b0000100#7
      responses := s.responses ++ [⟨3#8, false, []⟩] } := rfl

theorem State.raise_uninit (s : State) :
    s.raise .uninit = { s with
      sticky := s.sticky ||| 0b0010000#7
      responses := s.responses ++ [⟨5#8, false, []⟩] } := rfl

/-- The code names its sticky bit, whichever error it is; what is recorded is `EX` and `EY`. -/
theorem State.raise_eq (s : State) (e : Err) :
    s.raise e = { s with
      sticky := s.sticky ||| BitVec.ofNat 7 (2 ^ ((BitVec.ofNat 8 e.code).toNat - 1))
      ex := (s.raise e).ex
      ey := (s.raise e).ey
      responses := s.responses ++ [⟨BitVec.ofNat 8 e.code, false, []⟩] } := by
  cases e <;> rfl

theorem Err.toNat_ofNat_code_bounds (e : Err) :
    1 ≤ (BitVec.ofNat 8 e.code).toNat ∧ (BitVec.ofNat 8 e.code).toNat ≤ 7 := by
  cases e <;> simp [Err.code]

/-- A command whose response has an error code took that error. -/
theorem exec_eq_raise_of_err_ne_zero {i : Instr} {r : Response} (hexec : exec i s = .next t)
    (hresp : t.responses = s.responses ++ [r]) (herr : r.err ≠ 0#8) :
    ∃ e : Err, t = s.raise e ∧ r = ⟨BitVec.ofNat 8 e.code, false, []⟩ := by
  obtain ⟨t', ht, frame⟩ | ⟨e, he⟩ := exec_inversion i s
  · obtain rfl : t' = t := by simpa [ht] using hexec
    obtain ⟨flag, data, hok⟩ := frame.responds
    exact absurd (congrArg Response.err (response_eq hresp hok)) herr
  · obtain rfl : s.raise e = t := by simpa [he] using hexec
    exact ⟨e, rfl, response_eq hresp (State.raise_responses s e)⟩

/-- Settles O56: a command that answers an error code is in the state of `State.raise`
(`exec_eq_raise_of_err_ne_zero`), which `State.raise_eq` writes out. -/
theorem errorsChangeNothingElse : Obligations.ErrorsChangeNothingElse := by
  intro i s t r hexec hresp herr
  obtain ⟨e, rfl, rfl⟩ := exec_eq_raise_of_err_ne_zero hexec hresp herr
  obtain ⟨hone, hseven⟩ := e.toNat_ofNat_code_bounds
  refine ⟨hone, hseven, rfl, rfl, fun hcode => ?_, State.raise_eq s e⟩
  exact raise_coords_of_code_ne_two (fun h2 => hcode (by rw [h2])) s

/-! ### When a command raises Uninit (rule R234) -/

/-- Reading an operand that names the registers `rs` raises Uninit exactly when one of them is not
valid, and no other error. -/
def ReadsRegs {α : Type} (s : State) (rs : List Reg) (p : Except Err α) : Prop :=
  ((∃ v, p = .ok v) ∧ ∀ r ∈ rs, s.validBit r = true) ∨
    (p = .error .uninit ∧ ∃ r ∈ rs, s.validBit r = false)

theorem readF_readsRegs (s : State) (a : ElemSel) : ReadsRegs s [.f a] (s.readF a) := by
  obtain ⟨v, hv, -, hvalid⟩ | ⟨herr, hinvalid⟩ := readF_answers s a
  · exact .inl ⟨⟨v, hv⟩, by simpa using hvalid⟩
  · exact .inr ⟨herr, by simpa using hinvalid⟩

theorem readM_readsRegs (s : State) (a : ModSel) : ReadsRegs s a.regs (s.readM a) :=
  (readM_answers s a).imp_left fun ⟨v, hv, _, hvalid⟩ => ⟨⟨v, hv⟩, hvalid⟩

theorem readC_readsRegs (s : State) (a : CurveSel) : ReadsRegs s a.regs (s.readC a) :=
  (readC_answers s a).imp_left fun ⟨v, hv, _, hvalid⟩ => ⟨⟨v, hv⟩, hvalid⟩

theorem readP_readsRegs (s : State) (a : PointSel) : ReadsRegs s a.regs (s.readP a) :=
  (readP_answers s a).imp_left fun ⟨v, hv, _, hvalid⟩ => ⟨⟨v, hv⟩, hvalid⟩

/-- A command ends with a success's response, or with another error than Uninit. -/
def NotUninit (s : State) : Except Err State → Prop
  | .ok t => ∃ flag data, t.responses = s.responses ++ [⟨0#8, flag, data⟩]
  | .error e => e ≠ .uninit

theorem NotUninit.respond (h : t.responses = s.responses) (flag : Bool) (data : List Word) :
    NotUninit s (pure (t.respond flag data)) :=
  ⟨flag, data, congrArg (· ++ _) h⟩

theorem NotUninit.seq {α : Type} {p : Except Err α} {k : α → Except Err State}
    (hp : p ≠ .error .uninit) (hk : ∀ a, NotUninit s (k a)) : NotUninit s (p >>= k) := by
  cases p with
  | ok a => exact hk a
  | error e => exact fun he => hp (congrArg _ he)

theorem check_ne_uninit {b : Bool} {e : Err} (he : e ≠ .uninit) :
    check b e ≠ .error .uninit := by
  cases b with
  | true => nofun
  | false => exact fun h => he (Except.error.inj h)

theorem pointAdd_ne_uninit (u v : CPoint) : pointAdd u v ≠ .error .uninit := by
  by_cases hcv : u.cv = v.cv
  · obtain ⟨q, hq, -⟩ | ⟨x, y, herr⟩ := pointAdd_of_cv_eq hcv
    · simp [hq]
    · simp [herr]
  · simp [pointAdd_of_cv_ne hcv]

theorem scalarMul_ne_uninit (k : Nat) (u : CPoint) : scalarMul k u ≠ .error .uninit := by
  obtain ⟨q, hq, -⟩ | ⟨x, y, herr⟩ := scalarMul_answers k u
  · simp [hq]
  · simp [herr]

/-- A command that reads the registers `rs` raises Uninit when one of them is not valid, and ends
otherwise when all are. -/
structure UninitFor (s : State) (rs : List Reg) (p : Except Err State) : Prop where
  invalid : (∃ r ∈ rs, s.validBit r = false) → p = .error .uninit
  valid : (∀ r ∈ rs, s.validBit r = true) → NotUninit s p

theorem UninitFor.of_reads_nothing {p : Except Err State} (h : NotUninit s p) :
    UninitFor s [] p where
  invalid h := by simp at h
  valid _ := h

/-- A legal destination is no read. -/
theorem UninitFor.dest {α : Type} {rs : List Reg} {a : α} {k : α → Except Err State}
    (h : UninitFor s rs (k a)) : UninitFor s rs (.ok a >>= k) := h

theorem UninitFor.seq {α : Type} {rs rs' : List Reg} {p : Except Err α}
    {k : α → Except Err State} (hp : ReadsRegs s rs p) (hk : ∀ a, UninitFor s rs' (k a)) :
    UninitFor s (rs ++ rs') (p >>= k) := by
  obtain ⟨⟨v, rfl⟩, hvalid⟩ | ⟨rfl, r, hr, hinvalid⟩ := hp
  · refine ⟨fun ⟨r, hr, hinvalid⟩ => (hk v).invalid ⟨r, ?_, hinvalid⟩, fun h =>
      (hk v).valid fun r hr => h r (List.mem_append_right rs hr)⟩
    exact (List.mem_append.1 hr).resolve_left fun hrs => by simp [hvalid r hrs] at hinvalid
  · refine ⟨fun _ => rfl, fun h => ?_⟩
    simp [h r (List.mem_append_left rs' hr)] at hinvalid

/-- The last read of a command. -/
theorem UninitFor.last {α : Type} {rs : List Reg} {p : Except Err α} {k : α → Except Err State}
    (hp : ReadsRegs s rs p) (hk : ∀ a, NotUninit s (k a)) : UninitFor s rs (p >>= k) := by
  rw [← List.append_nil rs]
  exact .seq hp fun a => .of_reads_nothing (hk a)

theorem elemUnary_uninitFor (op : Elem → Elem) (d a : ElemSel) (s : State) :
    UninitFor s [.f a] (elemUnary op d a s) :=
  .last (readF_readsRegs s a) fun _ => .respond rfl _ _

theorem elemBinary_uninitFor (op : Elem → Elem → Elem) (d a b : ElemSel) (s : State) :
    UninitFor s [.f a, .f b] (elemBinary op d a b s) :=
  .seq (readF_readsRegs s a) fun _ => .last (readF_readsRegs s b) fun _ =>
    .seq (check_ne_uninit nofun) fun _ => .respond rfl _ _

/-- A legal command reads its sources before it meets any other error (rule R232). Each arm follows
the lines of the command's meaning. -/
theorem exec_uninitFor {i : Instr} (h : i.wellFormed = true) (s : State) :
    ∃ p, exec i s = complete s p ∧ UninitFor s i.reads p := by
  cases i with
  | nop | rdst sel => exact ⟨_, rfl, .of_reads_nothing (.respond rfl _ _)⟩
  | clrst => exact ⟨_, rfl, .of_reads_nothing (.respond (s := s) (t := s.clearSticky) rfl _ _)⟩
  | mld d payload =>
    obtain ⟨j, rfl⟩ := modDest_of_writable h
    exact ⟨_, rfl, .dest <| .of_reads_nothing <| .seq (check_ne_uninit nofun) fun _ =>
      .respond rfl _ _⟩
  | mst a | fld d a payload =>
    exact ⟨_, rfl, .last (readM_readsRegs s a) fun _ => .respond rfl _ _⟩
  | fmov d a | fmuli d a payload | finv d a | fpow d a neg payload =>
    exact ⟨_, rfl, elemUnary_uninitFor _ d a s⟩
  | fadd d a b | fsub d a b | fmul d a b | fdiv d a b =>
    exact ⟨_, rfl, elemBinary_uninitFor _ d a b s⟩
  | fsqrt d a form =>
    exact ⟨_, rfl, .last (readF_readsRegs s a) fun _ => .seq (check_ne_uninit nofun) fun _ =>
      .respond rfl _ _⟩
  | fst a part | fisz a =>
    exact ⟨_, rfl, .last (readF_readsRegs s a) fun _ => .respond rfl _ _⟩
  | feq a b =>
    exact ⟨_, rfl, .seq (readF_readsRegs s a) fun _ => .last (readF_readsRegs s b) fun _ =>
      .respond rfl _ _⟩
  | cmk d a b =>
    obtain ⟨j, rfl⟩ := curveDest_of_writable h
    exact ⟨_, rfl, .dest <| .seq (readF_readsRegs s a) fun _ =>
      .last (readF_readsRegs s b) fun _ => .seq (check_ne_uninit nofun) fun _ => .respond rfl _ _⟩
  | cst a => exact ⟨_, rfl, .last (readC_readsRegs s a) fun _ => .respond rfl _ _⟩
  | pmk d x y c =>
    obtain ⟨j, rfl⟩ := pointDest_of_writable h
    exact ⟨_, rfl, .dest <| .seq (readF_readsRegs s x) fun _ => .seq (readF_readsRegs s y) fun _ =>
      .last (readC_readsRegs s c) fun _ => .seq (check_ne_uninit nofun) fun _ =>
        .seq (check_ne_uninit nofun) fun _ => .respond rfl _ _⟩
  | pinf d c =>
    obtain ⟨j, rfl⟩ := pointDest_of_writable h
    exact ⟨_, rfl, .dest <| .last (readC_readsRegs s c) fun _ => .respond rfl _ _⟩
  | pmov d a =>
    obtain ⟨j, rfl⟩ := pointDest_of_writable h
    exact ⟨_, rfl, .dest <| .last (readP_readsRegs s a) fun _ => .respond rfl _ _⟩
  | pst a part => exact ⟨_, rfl, .last (readP_readsRegs s a) fun _ => .respond rfl _ _⟩
  | padd d a b =>
    obtain ⟨j, rfl⟩ := pointDest_of_writable h
    exact ⟨_, rfl, .dest <| .seq (readP_readsRegs s a) fun u =>
      .last (readP_readsRegs s b) fun v => .seq (pointAdd_ne_uninit u v) fun _ => .respond rfl _ _⟩
  | pdbl d a =>
    obtain ⟨j, rfl⟩ := pointDest_of_writable h
    exact ⟨_, rfl, .dest <| .last (readP_readsRegs s a) fun u =>
      .seq (pointAdd_ne_uninit u u) fun _ => .respond rfl _ _⟩
  | pmul d a payload =>
    obtain ⟨j, rfl⟩ := pointDest_of_writable h
    exact ⟨_, rfl, .dest <| .last (readP_readsRegs s a) fun u =>
      .seq (scalarMul_ne_uninit _ u) fun _ => .respond rfl _ _⟩
  | pmuln d a payload =>
    obtain ⟨j, rfl⟩ := pointDest_of_writable h
    exact ⟨_, rfl, .dest <| .last (readP_readsRegs s a) fun u =>
      .seq (check_ne_uninit nofun) fun _ => .seq (scalarMul_ne_uninit _ u) fun _ =>
        .respond rfl _ _⟩
  | peq a b =>
    exact ⟨_, rfl, .seq (readP_readsRegs s a) fun _ => .last (readP_readsRegs s b) fun _ =>
      .respond rfl _ _⟩

/-- Only Uninit has the code 5. -/
theorem Err.ofNat_code_ne_five {e : Err} (h : e ≠ .uninit) : BitVec.ofNat 8 e.code ≠ 5#8 := by
  cases e with
  | uninit => exact absurd rfl h
  | _ => simp [Err.code]

theorem err_ne_five_of_notUninit {p : Except Err State} {r : Response} (hp : NotUninit s p)
    (ht : complete s p = .next t) (hresp : t.responses = s.responses ++ [r]) : r.err ≠ 5#8 := by
  cases p with
  | ok t' =>
    obtain rfl : t' = t := by simpa using ht
    obtain ⟨flag, data, hok⟩ := hp
    simp [response_eq hresp hok]
  | error e =>
    obtain rfl : s.raise e = t := by simpa using ht
    rw [response_eq hresp (State.raise_responses s e)]
    exact Err.ofNat_code_ne_five hp

/-- Settles O53: a legal command reads its sources first (`exec_uninitFor`), and no other end of it
has Uninit's code. -/
theorem uninitExactlyWhenASourceIsInvalid : Obligations.UninitExactlyWhenASourceIsInvalid := by
  intro i s h
  obtain ⟨p, hexec, huninit⟩ := exec_uninitFor h s
  refine ⟨fun hinvalid => ?_, fun hvalid t r ht hresp => ?_⟩
  · rw [hexec, huninit.invalid hinvalid, complete_error, State.raise_uninit]
  · exact err_ne_five_of_notUninit (huninit.valid hvalid) (hexec.symm.trans ht) hresp

/-! ### STICKY has no effect on execution (rule R238) -/

/-- The second of two ends of a command is the first with `x` in the sticky bits. -/
def StickyApart (x : BitVec 7) (p q : Except Err State) : Prop :=
  q = p.map fun t => { t with sticky := x }

section Sticky

variable {x : BitVec 7}

theorem StickyApart.pure (t : State) :
    StickyApart x (Pure.pure t) (Pure.pure { t with sticky := x }) := rfl

theorem StickyApart.seq {α : Type} {p : Except Err α} {k k' : α → Except Err State}
    (h : ∀ a, StickyApart x (k a) (k' a)) : StickyApart x (p >>= k) (p >>= k') := by
  cases p with
  | ok a => exact h a
  | error e => rfl

/-- An error sets its own sticky bit, whatever the others are, and records the same. -/
theorem State.raise_withSticky (s : State) (x : BitVec 7) (e : Err) :
    State.raise { s with sticky := x } e =
      { s.raise e with sticky := setSticky x e.code } := by
  cases e <;> rfl

theorem complete_stickyApart (s : State) {p q : Except Err State} (h : StickyApart x p q)
    (ht : complete s p = .next t) :
    ∃ y, complete { s with sticky := x } q = .next { t with sticky := y } := by
  obtain rfl : q = _ := h
  cases p with
  | ok t' =>
    obtain rfl : t' = t := by simpa using ht
    exact ⟨x, rfl⟩
  | error e =>
    obtain rfl : s.raise e = t := by simpa using ht
    exact ⟨_, congrArg _ (State.raise_withSticky s x e)⟩

theorem elemUnary_stickyApart (op : Elem → Elem) (d a : ElemSel) (s : State) :
    StickyApart x (elemUnary op d a s) (elemUnary op d a { s with sticky := x }) :=
  .seq fun _ => .pure _

theorem elemBinary_stickyApart (op : Elem → Elem → Elem) (d a b : ElemSel) (s : State) :
    StickyApart x (elemBinary op d a b s) (elemBinary op d a b { s with sticky := x }) :=
  .seq fun _ => .seq fun _ => .seq fun _ => .pure _

end Sticky

/-- Settles O57: no read looks at the sticky bits and no write but CLRST's changes them, so each
command ends alike (`StickyApart`); CLRST clears them whatever they were. Each arm follows the lines
of the command's meaning. -/
theorem stickyDoesNotAffectExecution : Obligations.StickyDoesNotAffectExecution := by
  intro i s t x hi ht
  cases i with
  | nop => exact complete_stickyApart s (.pure _) ht
  | rdst sel =>
    cases sel with
    | status => exact absurd rfl hi
    | errinfo | ident => exact complete_stickyApart s (.pure _) ht
  | clrst =>
    obtain rfl : s.clearSticky.respond false [] = t := by simpa [exec, execClrst] using ht
    exact ⟨0#7, rfl⟩
  | fmov d a | fmuli d a payload | finv d a | fpow d a neg payload =>
    exact complete_stickyApart s (elemUnary_stickyApart _ d a s) ht
  | fadd d a b | fsub d a b | fmul d a b | fdiv d a b =>
    exact complete_stickyApart s (elemBinary_stickyApart _ d a b s) ht
  | mst a | fld d a payload | fst a part | fisz a | cst a | pst a part =>
    exact complete_stickyApart s (.seq fun _ => .pure _) ht
  | mld d payload | fsqrt d a form | feq a b | pinf d c | pmov d a | peq a b =>
    exact complete_stickyApart s (.seq fun _ => .seq fun _ => .pure _) ht
  | pdbl d a | pmul d a payload =>
    exact complete_stickyApart s (.seq fun _ => .seq fun _ => .seq fun _ => .pure _) ht
  | cmk d a b | padd d a b | pmuln d a payload =>
    exact complete_stickyApart s
      (.seq fun _ => .seq fun _ => .seq fun _ => .seq fun _ => .pure _) ht
  | pmk d a b c =>
    exact complete_stickyApart s
      (.seq fun _ => .seq fun _ => .seq fun _ => .seq fun _ => .seq fun _ => .seq fun _ =>
        .pure _) ht

/-! ### The mismatches (rule R231 codes 1 and 3) -/

theorem complete_elemBinary_of_ne {op : Elem → Elem → Elem} {d a b : ElemSel} {x y : Elem}
    (hx : s.f[a] = some x) (hy : s.f[b] = some y) (hp : x.prime ≠ y.prime) :
    complete s (elemBinary op d a b s) = .next (s.raise .fieldMismatch) := by
  rw [elemBinary_of_ne hx hy hp, complete_error]

theorem execCmk_of_ne {j : Fin 2} {a b : ElemSel} {x y : Elem} (hx : s.f[a] = some x)
    (hy : s.f[b] = some y) (hp : x.prime ≠ y.prime) :
    execCmk (.c j) a b s = .next (s.raise .fieldMismatch) := by
  rw [execCmk, curveDest_c, Except.bind_ok, complete_readF hx, complete_readF hy,
    beq_eq_false_iff_ne.2 hp, check_false, Except.bind_error, complete_error]

/-- PMK compares both moduli with the curve's before it tests the equation (rule R155). -/
theorem execPmk_of_ne {j : Fin 8} {a b : ElemSel} {c : CurveSel} {x y : Elem} {cv : Curve}
    (hx : s.f[a] = some x) (hy : s.f[b] = some y) (hc : s.HoldsC c cv)
    (hp : x.prime ≠ cv.p ∨ y.prime ≠ cv.p) :
    execPmk (.p j) a b c s = .next (s.raise .fieldMismatch) := by
  have hmismatch : (x.prime == cv.p && y.prime == cv.p) = false := by
    rwa [Bool.and_eq_false_iff, beq_eq_false_iff_ne, beq_eq_false_iff_ne]
  rw [execPmk, pointDest_p, Except.bind_ok, complete_readF hx, complete_readF hy,
    readC_of_holds hc, Except.bind_ok, hmismatch, check_false, Except.bind_error, complete_error]

theorem execPmuln_of_ne {j : Fin 8} {a : PointSel} {u : CPoint} (hu : s.HoldsP a u)
    (hcv : u.cv ≠ Config.k1) (payload : WInt) :
    execPmuln (.p j) a payload s = .next (s.raise .curveMismatch) := by
  have hne : curveEq u.cv Config.k1 = false :=
    Bool.eq_false_iff.2 (mt (curveEq_iff _ _).1 hcv)
  rw [execPmuln, pointDest_p, Except.bind_ok, complete_readP hu, hne, check_false,
    Except.bind_error, complete_error]

/-- Settles O54: each of the commands compares the moduli once its sources are read. -/
theorem fieldMismatchRaised : Obligations.FieldMismatchRaised := by
  refine ⟨fun d a b dc x y s hx hy hp i hi => ?_, fun d a b c x y cv s hx hy hc hp =>
    execPmk_of_ne hx hy hc hp⟩
  obtain rfl | rfl | rfl | rfl | rfl : i = .fadd d a b ∨ i = .fsub d a b ∨ i = .fmul d a b ∨
      i = .fdiv d a b ∨ i = .cmk (.c dc) a b := by simpa using hi
  case inr.inr.inr.inr => exact execCmk_of_ne hx hy hp
  all_goals exact complete_elemBinary_of_ne hx hy hp

/-- Settles O55: PointAdd compares the curves before anything else (`pointAdd_of_cv_ne`), and PMULN
compares its point's with `K1`. -/
theorem curveMismatchRaised : Obligations.CurveMismatchRaised :=
  ⟨fun _ _ _ _ _ _ hu hv hcv => execPadd_of_error hu hv (pointAdd_of_cv_ne hcv),
    fun _ _ payload _ _ hu hcv => execPmuln_of_ne hu hcv payload⟩

end Sys2Proof.Machine
end

section
/-!
PROOFS. Reset at the command port (70_reset_and_hazards.md rules R260, R261): what a fetch answers
when a reset stands at the head of the port, or before the last word of a command.
-/

namespace Sys2Proof.Machine

@[simp] theorem fetch_reset_cons (rest : List PortEvent) :
    fetch (.reset :: rest) = .reset rest := rfl

/-- A reset before the last payload word discards the header with the words after it. -/
theorem fetch_reset_of_partial (h : Word) (payload : List Word) (rest : List PortEvent)
    (hlen : payload.length < payloadLength h) :
    fetch (present (h :: payload) ++ .reset :: rest) = .reset rest := by
  simp [fetch, takeWords_reset _ _ _ hlen, Fetched.cons]

/-! ### The statements -/

/-- Settles O11: the payload header calls for eight words, so the reset comes before the command
is whole and is all that the step finds. -/
theorem resetDiscardsAPartialCommand : Obligations.ResetDiscardsAPartialCommand := by
  intro s h payload rest hop hlen hport
  have hneed : payload.length < payloadLength h := by rwa [payloadLength_eq, if_pos hop]
  exact step_of_reset (by rw [hport, fetch_reset_of_partial h payload rest hneed])

/-- Settles O10: a reset at the head of the port is what the step finds, and `State.hostReset` is
the reset state with the port and the responses of the host. -/
theorem resetEventLeavesResetState : Obligations.ResetEventLeavesResetState := by
  intro s rest hport
  exact step_of_reset (by rw [hport, fetch_reset_cons])

end Sys2Proof.Machine
end

section
/-!
PROOFS. The worked encodings of 30_encoding.md section 7: each list of words is what the encoder
gives for the command beside it, so decoding reads that command back (rules R80 to R84).
-/

namespace Sys2Proof

/-- Settles O1: each part is the round trip (`decodeOfEncodeIsIdentity`) at one legal command, whose
encoding evaluates to the words stated. -/
theorem workedEncodingsDecode : Obligations.WorkedEncodingsDecode :=
  ⟨decodeOfEncodeIsIdentity .nop rfl,
    decodeOfEncodeIsIdentity (.rdst .errinfo) rfl,
    decodeOfEncodeIsIdentity (.mld (.m 0) 13#256) rfl,
    decodeOfEncodeIsIdentity (.fld 1 .sp 5#256) rfl,
    decodeOfEncodeIsIdentity (.fadd 3 1 2) rfl,
    decodeOfEncodeIsIdentity (.fpow 1 0 true 3#256) rfl,
    decodeOfEncodeIsIdentity (.fsqrt 4 3 .odd) rfl,
    decodeOfEncodeIsIdentity (.cmk (.c 0) 0 1) rfl,
    decodeOfEncodeIsIdentity (.pmk (.p 1) 4 5 .k1) rfl,
    decodeOfEncodeIsIdentity (.padd (.p 2) (.p 0) (.p 1)) rfl,
    decodeOfEncodeIsIdentity (.pmuln (.p 0) .g 5001#256) rfl,
    decodeOfEncodeIsIdentity (.peq (.p 0) .g) rfl⟩

end Sys2Proof
end
